-- ==== Sys2Proof/Word.lean ====
section
/-! DEFINITION. The two widths the FCV handles (20_memory.md R45): a byte and the 16-bit checksum state. -/

namespace Sys2Proof

/-- A *byte*: an unsigned 8-bit value (00_scope.md R12). -/
abbrev Byte := BitVec 8

/-- A *u16*: an unsigned 16-bit value (00_scope.md R12). -/
abbrev U16 := BitVec 16

end Sys2Proof
end

