-- ==== Sys2Proof/Config.lean ====
section
/-! DEFINITION. The configuration `CFG` of 00_scope.md R8: what an implementation or its host fixes at reset.
Every OPEN parameter is a field, so that every statement holds for every value of it. The spec leaves no result of
an operation unstated, so there is no free value here. -/

namespace Sys2Proof

/-- One entry `(canonical, (a1, a2))` of the address-alias table (00_scope.md R8, 42_frame_codec.md R144). -/
structure AliasEntry where
  canonical : Byte
  first     : Byte
  second    : Byte
deriving DecidableEq, Repr

/-- `CFG`: exactly the parameters of 00_scope.md R8. CRC width, CRC initial state, escape transform and byte width
are fixed and stand in the operations. -/
structure Cfg where
  /-- `CFG.SOT` (10_state.md R24). -/
  sot : Byte
  /-- `CFG.EOT` (10_state.md R25). -/
  eot : Byte
  /-- `CFG.SOE` (10_state.md R26). -/
  soe : Byte
  /-- `CFG.XON` (10_state.md R27), OPEN. -/
  xon : Byte
  /-- `CFG.XOFF` (10_state.md R27), OPEN. -/
  xoff : Byte
  /-- `CFG.MAX_PAYLOAD` (10_state.md R28), OPEN. -/
  maxPayload : Nat
  /-- `CFG.ALIAS` (10_state.md R28, 42_frame_codec.md R144), OPEN. -/
  aliases : List AliasEntry
  /-- `CFG.RX_CAP` (10_state.md R28): counts a candidate from its SOT through its EOT. -/
  rxCap : Nat
deriving DecidableEq, Repr

/-- The lower bound and derived default of `RX_CAP`, `2*(MAX_PAYLOAD+7)+2` (00_scope.md R8, R9). -/
def defaultRxCap (maxPayload : Nat) : Nat := 2 * (maxPayload + 7) + 2

/-- The default sentinels of 00_scope.md R8 with a payload bound the host chooses, no aliases and the derived
reader capacity. XON and XOFF take the spec's defaults: PRESUMED (the spec marks them as general knowledge), unsafe,
notes/assumptions/2.md. -/
def defaultCfg (maxPayload : Nat) : Cfg where
  sot := 0x0D
  eot := 0x0A
  soe := 0x5E
  xon := 0x11
  xoff := 0x13
  maxPayload := maxPayload
  aliases := []
  rxCap := defaultRxCap maxPayload

/-- The configuration `Machine.State.reset` latches: the spec's `DCFG` (95_test_vectors.md, conventions).
DESIGN CHOICE: MAX_PAYLOAD is OPEN without a default, and 16 is the spec's own test choice; unsafe,
notes/assumptions/1.md. No statement rests on the 16. ALIAS and RX_CAP take the spec's defaults, notes/assumptions/3.md. -/
def resetCfg : Cfg := defaultCfg 16

end Sys2Proof
end

