-- ==== Sys2Proof/Syntax.lean ====
section
/-! DEFINITION. The operations of the FCV: one constructor per row of spec/opcode_table.json, with the operand of
30_encoding.md R62 that the row's command word selects. -/

namespace Sys2Proof

/-- A legal command transaction (30_encoding.md R60, R62, R66). A `SEQ` operand is any finite sequence (D25). -/
inductive Instr where
  /-- CRC_INIT, operand NONE (40_checksum.md R104). -/
  | crcInit
  /-- CRC_BYTE, operand BYTE (40_checksum.md R105). -/
  | crcByte (b : Byte)
  /-- CHECKSUM, operand SEQ (40_checksum.md R106). -/
  | checksum (seq : List Byte)
  /-- VERIFY, operand SEQ (40_checksum.md R107). -/
  | verify (seq : List Byte)
  /-- STUFF, operand SEQ (41_stuffer.md R121). -/
  | stuff (x : List Byte)
  /-- UNSTUFF, operand SEQ (41_stuffer.md R123). -/
  | unstuff (y : List Byte)
  /-- ENCODE, operand FRAME (42_frame_codec.md R145, 30_encoding.md R64). -/
  | encode (dest src cmd : Byte) (payload : List Byte)
  /-- DECODE, operand SEQ (42_frame_codec.md R147). -/
  | decode (w : List Byte)
  /-- RX_BYTE, operand BYTE (43_reader.md R171). -/
  | rxByte (b : Byte)
  /-- RX_PUSH, operand SEQ (43_reader.md R173). -/
  | rxPush (chunk : List Byte)
  /-- RX_TIMEOUT, operand NONE (43_reader.md R175). -/
  | rxTimeout
  /-- RX_FLUSH, operand NONE (43_reader.md R176). -/
  | rxFlush
deriving DecidableEq, Repr

end Sys2Proof
end

