-- ==== Sys2Proof/WellFormed.lean ====
section
/-! DEFINITION. Well-formed instructions. At transaction level every operand is legal (30_encoding.md R62, D25); the
one check is the serialized form's bound on a sequence (R63, D26), which an encoder needs. -/

namespace Sys2Proof

/-- A sequence the serialized form can express: at most 0xFFFF bytes (30_encoding.md R63). -/
def serializableSeq (s : List Byte) : Bool := s.length ≤ 0xFFFF

/-- An instruction the serialized form of 30_encoding.md R63 can express. An instruction that is not well-formed in
this sense is still a legal transaction, and `Machine.exec` runs it (93_implementation_defined.md I11). -/
def Instr.wf : Instr → Bool
  | .crcInit => true
  | .crcByte _ => true
  | .checksum seq => serializableSeq seq
  | .verify seq => serializableSeq seq
  | .stuff x => serializableSeq x
  | .unstuff y => serializableSeq y
  | .encode _ _ _ payload => serializableSeq payload
  | .decode w => serializableSeq w
  | .rxByte _ => true
  | .rxPush chunk => serializableSeq chunk
  | .rxTimeout => true
  | .rxFlush => true

end Sys2Proof
end

