-- ==== Sys2Proof/Decode.lean ====
section
/-! DEFINITION. Command words, operand shapes and the serialized form (30_encoding.md R60 to R68): the decoder, total
on every byte stream, and the encoder written from the same tables. -/

namespace Sys2Proof

/-! ## 16-bit values as bytes -/

/-- `c[15:8]`, the high byte of a u16 (00_scope.md R12). -/
def hiByte (c : U16) : Byte := c.extractLsb' 8 8

/-- `c[7:0]`, the low byte of a u16 (00_scope.md R12). -/
def loByte (c : U16) : Byte := c.extractLsb' 0 8

/-- `(msb << 8) | lsb` (20_memory.md R43). -/
def joinBytes (msb lsb : Byte) : U16 := (msb.setWidth 16 <<< 8) ||| lsb.setWidth 16

/-- A u16 as two bytes, MSB first: the wire order of 20_memory.md R42 and of every serialized u16 (D26). -/
def u16Bytes (c : U16) : List Byte := [hiByte c, loByte c]

/-- `LEN16` of a length (30_encoding.md R63). -/
def len16 (n : Nat) : List Byte := u16Bytes (BitVec.ofNat 16 n)

/-- `LEN16(s) ++ s` (30_encoding.md R63). -/
def lenSeq (s : List Byte) : List Byte := len16 s.length ++ s

/-! ## Operands and command words -/

/-- The operand of a command transaction, in one of the four shapes of 30_encoding.md R62. -/
inductive Operand where
  | none
  | byte (b : Byte)
  | seq (s : List Byte)
  | frame (dest src cmd : Byte) (payload : List Byte)
deriving DecidableEq, Repr

/-- A command transaction `(CW, operand)` (30_encoding.md R60). -/
structure Transaction where
  cw      : Byte
  operand : Operand
deriving DecidableEq, Repr

/-- `OPSEL`, `CW[3:0]` (30_encoding.md R61). -/
def opsel (cw : Byte) : BitVec 4 := cw.extractLsb' 0 4

/-- `RSV`, `CW[7:4]`; must be 0 (30_encoding.md R61). -/
def rsv (cw : Byte) : BitVec 4 := cw.extractLsb' 4 4

/-- What a command word selects: nothing (illegal, R67), or an operation by the shape of its operand. -/
inductive Selected where
  | illegal
  | none (i : Instr)
  | byte (mk : Byte → Instr)
  | seq (mk : List Byte → Instr)
  | frame (mk : Byte → Byte → Byte → List Byte → Instr)

/-- The opcode map of 30_encoding.md R66; every other command word is illegal (R67). -/
def selected (cw : Byte) : Selected :=
  if rsv cw = 0 then
    match (opsel cw).toNat with
    | 0x1 => .none .crcInit
    | 0x2 => .byte .crcByte
    | 0x3 => .seq .checksum
    | 0x4 => .seq .verify
    | 0x5 => .seq .stuff
    | 0x6 => .seq .unstuff
    | 0x7 => .frame .encode
    | 0x8 => .seq .decode
    | 0x9 => .byte .rxByte
    | 0xA => .seq .rxPush
    | 0xB => .none .rxTimeout
    | 0xC => .none .rxFlush
    | _ => .illegal
  else .illegal

/-! ## Decoding a transaction -/

/-- What a transaction is. `wrongShape`: the operand has another shape than the legal command word selects, so the
pair is no transaction of R60 (notes/assumptions/7.md). -/
inductive DecodedTransaction where
  | instr (i : Instr)
  | illegal
  | wrongShape
deriving DecidableEq, Repr

/-- Reads a transaction. An illegal command word takes priority: its operand is not examined (60_exceptions.md
R206). -/
def decodeTransaction (t : Transaction) : DecodedTransaction :=
  match selected t.cw, t.operand with
  | .illegal, _ => .illegal
  | .none i, .none => .instr i
  | .byte mk, .byte b => .instr (mk b)
  | .seq mk, .seq s => .instr (mk s)
  | .frame mk, .frame dest src cmd payload => .instr (mk dest src cmd payload)
  | _, _ => .wrongShape

/-! ## Decoding the serialized form -/

/-- Reads `LEN16(s) ++ s` from the front of a stream: the sequence and what follows it, or none where the stream
ends inside it (30_encoding.md R63). -/
def takeSeq : List Byte → Option (List Byte × List Byte)
  | msb :: lsb :: rest =>
    let n := (joinBytes msb lsb).toNat
    if n ≤ rest.length then some (rest.take n, rest.drop n) else none
  | _ => none

/-- What stands at the front of a serialized command stream. -/
inductive Decoded where
  /-- A whole transaction and the bytes after it. -/
  | instr (i : Instr) (rest : List Byte)
  /-- An illegal command word; no operand bytes follow it (30_encoding.md R63, R67). -/
  | illegal (cw : Byte) (rest : List Byte)
  /-- The stream ends inside a transaction, which is therefore not yet issued. -/
  | incomplete
  /-- No byte. -/
  | empty
deriving DecidableEq, Repr

/-- Reads one transaction from a serialized command stream (30_encoding.md R63). Total: every stream is one of the
four cases, and every first byte is an operation of R66 or illegal (R68). -/
def decode : List Byte → Decoded
  | [] => .empty
  | cw :: rest =>
    match selected cw with
    | .illegal => .illegal cw rest
    | .none i => .instr i rest
    | .byte mk =>
      match rest with
      | b :: rest => .instr (mk b) rest
      | [] => .incomplete
    | .seq mk =>
      match takeSeq rest with
      | some (s, rest) => .instr (mk s) rest
      | Option.none => .incomplete
    | .frame mk =>
      match rest with
      | dest :: src :: cmd :: rest =>
        match takeSeq rest with
        | some (payload, rest) => .instr (mk dest src cmd payload) rest
        | Option.none => .incomplete
      | _ => .incomplete

/-! ## Encoding -/

/-- The command word of an operation (30_encoding.md R66). -/
def commandWord : Instr → Byte
  | .crcInit => 0x01
  | .crcByte _ => 0x02
  | .checksum _ => 0x03
  | .verify _ => 0x04
  | .stuff _ => 0x05
  | .unstuff _ => 0x06
  | .encode _ _ _ _ => 0x07
  | .decode _ => 0x08
  | .rxByte _ => 0x09
  | .rxPush _ => 0x0A
  | .rxTimeout => 0x0B
  | .rxFlush => 0x0C

/-- The operand of an operation (30_encoding.md R62, R64). -/
def operandOf : Instr → Operand
  | .crcInit => .none
  | .crcByte b => .byte b
  | .checksum seq => .seq seq
  | .verify seq => .seq seq
  | .stuff x => .seq x
  | .unstuff y => .seq y
  | .encode dest src cmd payload => .frame dest src cmd payload
  | .decode w => .seq w
  | .rxByte b => .byte b
  | .rxPush chunk => .seq chunk
  | .rxTimeout => .none
  | .rxFlush => .none

/-- An operation as a transaction `(CW, operand)` (30_encoding.md R60). -/
def transactionOf (i : Instr) : Transaction := ⟨commandWord i, operandOf i⟩

/-- The bytes after the command word (30_encoding.md R63). -/
def operandBytes : Operand → List Byte
  | .none => []
  | .byte b => [b]
  | .seq s => lenSeq s
  | .frame dest src cmd payload => dest :: src :: cmd :: lenSeq payload

/-- The serialized form of an operation: the command word, then the operand bytes (30_encoding.md R63). It stands for
the operation only where the operation is well-formed (`Instr.wf`). -/
def encode (i : Instr) : List Byte := commandWord i :: operandBytes (operandOf i)

/-! ## Words as the opcode table numbers them -/

/-- `n` bytes of a number, the least significant byte first: the opcode table's bit 0 is the least significant bit of
the first byte. -/
def tableBytes : Nat → Nat → List Byte
  | 0, _ => []
  | n + 1, w => BitVec.ofNat 8 w :: tableBytes n (w / 256)

/-- How many bytes the transaction at the front of a stream has, bytes the stream lacks taken as zero. -/
def transactionLength (bs : List Byte) : Nat :=
  match selected (bs.getD 0 0) with
  | .illegal => 1
  | .none _ => 1
  | .byte _ => 2
  | .seq _ => 3 + (joinBytes (bs.getD 1 0) (bs.getD 2 0)).toNat
  | .frame _ => 6 + (joinBytes (bs.getD 4 0) (bs.getD 5 0)).toNat

/-- The serialized transaction whose first `nbits` bits are `w` and whose further bits are zero. -/
def tableStream (nbits w : Nat) : List Byte :=
  let bs := tableBytes (nbits / 8) w
  bs ++ List.replicate (transactionLength bs - bs.length) 0

/-- The instruction the decoder reads from a word numbered as spec/opcode_table.json numbers it. -/
def decodeTableWord (nbits w : Nat) : Option Instr :=
  match decode (tableStream nbits w) with
  | .instr i _ => some i
  | .illegal _ _ => none
  | .incomplete => none
  | .empty => none

end Sys2Proof
end

