-- ==== Sys2Proof/Machine/State.lean ====
section
/-! DEFINITION. The state `(CFG, S)` of 10_state.md R20, plain data, with the two ends of the host interface (the
commands not yet taken, the results returned) beside it, and the state after reset. -/

namespace Sys2Proof.Machine

open Sys2Proof

/-- `S.rx_state` (10_state.md R31). -/
inductive RxState where
  /-- No SOT seen since the last candidate, noise discard, timeout or flush. -/
  | hunt
  /-- An SOT has been seen and no EOT yet. -/
  | inFrame
deriving DecidableEq, Repr

/-- The result codes of 30_encoding.md R70, one constructor a row; the type has no other value, as the rule says
("Every other value is never returned"). `resultByte` in Flags.lean gives the bytes. -/
inductive ResultCode where
  | ok
  | missingSot
  | missingEot
  | misplacedDelimiter
  | trailingSoe
  | badEscape
  | literalReserved
  | overflow
  | checksum
  | short
  | tooLong
  | timeout
  | illegalOp
deriving DecidableEq, Repr

/-- A decoded Frame, all five fields (42_frame_codec.md R140). -/
structure Frame where
  dest     : Byte
  src      : Byte
  cmd      : Byte
  payload  : List Byte
  checksum : U16
deriving DecidableEq, Repr

/-- One event of RX_PUSH (30_encoding.md R65, 43_reader.md R173). -/
inductive Event where
  | candidate (c : List Byte)
  | error (rc : ResultCode)
deriving DecidableEq, Repr

/-- The value shapes of 30_encoding.md R65. -/
inductive Value where
  | none
  | u16 (c : U16)
  | bool (t : Bool)
  | seq (s : List Byte)
  | frame (f : Frame)
  | cand (c : Option (List Byte))
  | events (e : List Event)
deriving DecidableEq, Repr

/-- A result `(RC, value)` (30_encoding.md R65). -/
structure Result where
  rc    : ResultCode
  value : Value
deriving DecidableEq, Repr

/-- What the host does to the block (00_scope.md R6): issue a command transaction, or reset it with a configuration
(70_reset_and_hazards.md R231, R232; not a command word). -/
inductive HostAction where
  | transaction (t : Transaction)
  | reset (cfg : Cfg)
deriving DecidableEq, Repr

/-- The whole state. `cfg`, `crc`, `rxState` and `rxBuf` are the spec's (10_state.md R20). `pending`, `stream` and
`results` are the model's own: the host interface held as data. DESIGN CHOICE, notes/assumptions/4.md (safe) and
notes/assumptions/5.md (safe). -/
structure State where
  /-- `CFG`, latched at reset (10_state.md R20, R29). -/
  cfg     : Cfg
  /-- `S.crc` (10_state.md R30). -/
  crc     : U16
  /-- `S.rx_state` (10_state.md R31). -/
  rxState : RxState
  /-- `S.rx_buf` (10_state.md R32). -/
  rxBuf   : List Byte
  /-- Host actions not yet taken, in issue order (00_scope.md R5, R6). -/
  pending : List HostAction
  /-- The serialized command stream not yet consumed (30_encoding.md R63). -/
  stream  : List Byte
  /-- The results returned so far, oldest first (70_reset_and_hazards.md R242). No operation reads it (10_state.md
  R23). -/
  results : List Result
deriving DecidableEq, Repr

/-- Reasons the machine could stop with a fault. There is none: the FCV has no traps, and every error is a result code
of the operation that met it (60_exceptions.md R200, R207). DEDUCED, safe, notes/assumptions/11.md. -/
inductive Fault where
deriving DecidableEq, Repr

/-- Reasons the model gives no meaning. -/
inductive Refusal where
  /-- Raised by an arm of `exec` whose instruction has no meaning yet (no arm is one now). Safe: nothing is claimed of
  the instruction. -/
  | notModelled (mnemonic : String)
  /-- Raised by a host reset with a configuration that fails `CFG_VALID`: "refused: a model has no state for it"
  (70_reset_and_hazards.md R231). DEDUCED, safe, notes/assumptions/15.md: the spec defines no behaviour there
  (00_scope.md R9). -/
  | invalidConfiguration
  /-- Raised where the host's pair `(CW, operand)` has an operand of another shape than the legal command word selects,
  so that it is no transaction (30_encoding.md R60, R62). DESIGN CHOICE, safe, notes/assumptions/7.md. -/
  | operandShape
deriving DecidableEq, Repr

/-- `reset(CFG)`: the configuration latched and the run-time state at the values of 70_reset_and_hazards.md R230, R232,
with no host action outstanding. -/
def State.resetWith (cfg : Cfg) : State where
  cfg := cfg
  crc := 0x0000
  rxState := .hunt
  rxBuf := []
  pending := []
  stream := []
  results := []

/-- The machine right after reset with the default configuration (`resetCfg`; notes/assumptions/1.md, 2.md, 3.md). -/
def State.reset : State := State.resetWith resetCfg

end Sys2Proof.Machine
end

