-- ==== Sys2Proof/Machine/Flags.lean ====
section
/-! DEFINITION. The FCV has no flags and no condition codes (10_state.md R23): an operation reports its outcome in its
result code. This file gives the result codes their bytes (30_encoding.md R69, R70) and results their serialized form
(30_encoding.md R65). -/

namespace Sys2Proof.Machine

open Sys2Proof

/-- The 8-bit result code (30_encoding.md R70). -/
def resultByte : ResultCode → Byte
  | .ok => 0x00
  | .missingSot => 0x11
  | .missingEot => 0x12
  | .misplacedDelimiter => 0x13
  | .trailingSoe => 0x14
  | .badEscape => 0x15
  | .literalReserved => 0x16
  | .overflow => 0x17
  | .checksum => 0x20
  | .short => 0x31
  | .tooLong => 0x32
  | .timeout => 0x40
  | .illegalOp => 0x50

/-- The error *kind*, `RC[7:4]` (30_encoding.md R69). -/
def resultKind (rc : ResultCode) : BitVec 4 := (resultByte rc).extractLsb' 4 4

/-- The *cause* within the kind, `RC[3:0]` (30_encoding.md R69). -/
def resultCause (rc : ResultCode) : BitVec 4 := (resultByte rc).extractLsb' 0 4

/-- A sequence in serialized form, `LEN16(s) ++ s`; none where it is longer than 0xFFFF bytes and the serialized form
cannot express it (30_encoding.md R63, 93_implementation_defined.md I11; notes/assumptions/10.md). -/
def serializeSeq (s : List Byte) : Option (List Byte) :=
  if serializableSeq s then some (lenSeq s) else none

/-- One event: `0x00 ++ LEN16(c) ++ c`, or the one byte `rc` (30_encoding.md R65). -/
def serializeEvent : Event → Option (List Byte)
  | .candidate c => (serializeSeq c).map (0x00 :: ·)
  | .error rc => some [resultByte rc]

/-- Events one after another. -/
def serializeEvents : List Event → Option (List Byte)
  | [] => some []
  | e :: es =>
    match serializeEvent e, serializeEvents es with
    | some x, some xs => some (x ++ xs)
    | _, _ => none

/-- The bytes of a value after `RC` (30_encoding.md R65). -/
def serializeValue : Value → Option (List Byte)
  | .none => some []
  | .u16 c => some (u16Bytes c)
  | .bool t => some [if t then 0x01 else 0x00]
  | .seq s => serializeSeq s
  | .frame f =>
    (serializeSeq f.payload).map fun p => f.dest :: f.src :: f.cmd :: (p ++ u16Bytes f.checksum)
  | .cand Option.none => some [0x00]
  | .cand (some c) => (serializeSeq c).map (0x01 :: ·)
  | .events es =>
    if es.length ≤ 0xFFFF then (serializeEvents es).map (len16 es.length ++ ·) else none

/-- A result as bytes: `RC`, then the value (30_encoding.md R65). -/
def serializeResult (r : Result) : Option (List Byte) :=
  (serializeValue r.value).map (resultByte r.rc :: ·)

end Sys2Proof.Machine
end

