-- ==== Sys2Proof/Machine/Operands.lean ====
section
/-! DEFINITION. The sets and predicates of the configuration that operations read (00_scope.md R9 to R11), and the
escape transform on one byte (00_scope.md R8). -/

namespace Sys2Proof.Machine

open Sys2Proof

/-- `RES = {SOT, EOT, XON, XOFF, SOE}`, the reserved set (00_scope.md R11, 41_stuffer.md R120). -/
def reservedSet (cfg : Cfg) : List Byte := [cfg.sot, cfg.eot, cfg.xon, cfg.xoff, cfg.soe]

/-- `b in RES` (00_scope.md R11). -/
def reserved (cfg : Cfg) (b : Byte) : Bool := (reservedSet cfg).contains b

/-- `b in DELIM`, where `DELIM = {SOT, EOT}` (00_scope.md R11). -/
def delimiter (cfg : Cfg) (b : Byte) : Bool := b == cfg.sot || b == cfg.eot

/-- Escape `b | 0x40` (00_scope.md R8; `|`, not `+`: 90_conflicts.md C2). -/
def escapeByte (b : Byte) : Byte := b ||| 0x40

/-- Unescape `e & 0x3F` (00_scope.md R8). -/
def unescapeByte (e : Byte) : Byte := e &&& 0x3F

/-- The two alias bytes of an entry. -/
def aliasPair (a : AliasEntry) : Byte × Byte := (a.first, a.second)

/-- `CFG_VALID(CFG)`, 00_scope.md R9: distinct sentinels, distinct canonical bytes, distinct alias pairs, and room in
the reader for every legal frame. -/
def cfgValid (cfg : Cfg) : Bool :=
  decide (reservedSet cfg).Nodup
    && decide (cfg.aliases.map AliasEntry.canonical).Nodup
    && decide (cfg.aliases.map aliasPair).Nodup
    && decide (defaultRxCap cfg.maxPayload ≤ cfg.rxCap)

/-- `WF_ESC(CFG)`, 00_scope.md R10: every reserved value is below 0x40. The default configuration does not satisfy
it. -/
def wfEsc (cfg : Cfg) : Bool := (reservedSet cfg).all fun r => decide (r < 0x40)

end Sys2Proof.Machine
end

