-- ==== Sys2Proof/Machine/Ops.lean ====
section
/-! DEFINITION. The named operations over the state that the meanings share (00_scope.md R15): writing the checksum
register and the reader, returning a result, raising an error, and reset. The FCV has no memory (20_memory.md R40), no
trap entry and no trap return (60_exceptions.md R207, R208): raising an error IS returning its result. -/

namespace Sys2Proof.Machine

open Sys2Proof

/-- `S.crc <- c` (00_scope.md R15). -/
def State.setCrc (s : State) (c : U16) : State :=
  { s with crc := c }

/-- `S.rx_state <- st; S.rx_buf <- buf` (00_scope.md R15). -/
def State.setReader (s : State) (st : RxState) (buf : List Byte) : State :=
  { s with rxState := st, rxBuf := buf }

/-- `S.rx_buf <- []; S.rx_state <- HUNT` (43_reader.md R175, R176). -/
def State.clearReader (s : State) : State := s.setReader .hunt []

/-- The host's end of the interface: which actions it has outstanding. -/
def State.setPending (s : State) (p : List HostAction) : State :=
  { s with pending := p }

/-- The host's end of the interface: which serialized command bytes it has outstanding. -/
def State.setStream (s : State) (bs : List Byte) : State :=
  { s with stream := bs }

/-- The result is returned to the host (30_encoding.md R65, 70_reset_and_hazards.md R242). -/
def State.answer (s : State) (r : Result) : State :=
  { s with results := s.results ++ [r] }

/-- `return (0x00, v)` (00_scope.md R15). -/
def returnOk (v : Value) (s : State) : Host.Outcome State Fault Refusal :=
  .next (s.answer ⟨.ok, v⟩)

/-- `raise <Kind>(<cause>)`: "returns the result code of that kind and cause and the value `none`", with no state of
its own written, saved or vectored (00_scope.md R15, 60_exceptions.md R200, R207). -/
def raise (rc : ResultCode) (s : State) : Host.Outcome State Fault Refusal :=
  .next (s.answer ⟨rc, .none⟩)

/-- `return (0x00, v)` or the raised error, for an operation that computes either. -/
def returnOrRaise (r : Except ResultCode Value) (s : State) : Host.Outcome State Fault Refusal :=
  match r with
  | .ok v => returnOk v s
  | .error rc => raise rc s

/-- An illegal command word: `(0x50 ILLEGAL_OP, none)`, no state changed (30_encoding.md R67). -/
def illegalCommand (s : State) : Host.Outcome State Fault Refusal := raise .illegalOp s

/-- Reset with a configuration (70_reset_and_hazards.md R230, R231): latches it and writes R230's values; refused where
the configuration fails `CFG_VALID`. The host's outstanding commands and the results it already has are the host's, and
stay: DESIGN CHOICE, safe, notes/assumptions/8.md. A reset returns no result: DESIGN CHOICE, unsafe,
notes/assumptions/17.md. -/
def hostReset (cfg : Cfg) (s : State) : Host.Outcome State Fault Refusal :=
  if cfgValid cfg then
    .next { State.resetWith cfg with pending := s.pending, stream := s.stream, results := s.results }
  else .refused .invalidConfiguration

end Sys2Proof.Machine
end

