-- ==== Sys2Proof/Machine/Checksum.lean ====
section
/-! DEFINITION. The Checksum Engine (40_checksum.md): the recurrence, and CRC_INIT, CRC_BYTE, CHECKSUM, VERIFY. -/

namespace Sys2Proof.Machine

open Sys2Proof

/-! ## The recurrence -/

/-- Swap high and low byte (40_checksum.md R100, first line). -/
def crcSwap (s : U16) : U16 := (s >>> 8) ||| (s <<< 8)

/-- Bits 7..4 into bits 3..0 (R100, third line). -/
def crcMix4 (t : U16) : U16 := t ^^^ ((t &&& 0x00FF) >>> 4)

/-- Bits 3..0 into bits 15..12 (R100, fourth line). -/
def crcMix12 (t : U16) : U16 := t ^^^ (t <<< 12)

/-- Bits 7..0 into bits 12..5 (R100, fifth line). -/
def crcMix5 (t : U16) : U16 := t ^^^ ((t &&& 0x00FF) <<< 5)

/-- `crc_step(s, b)`, 40_checksum.md R100: each line reads the value the line before it wrote. All three mixing steps
are applied (90_conflicts.md C3). A 16-bit vector masks every step. -/
def crcStep (s : U16) (b : Byte) : U16 := crcMix5 (crcMix12 (crcMix4 (crcSwap s ^^^ b.setWidth 16)))

/-- `crc_fold(s, seq)`, 40_checksum.md R101, index 0 first. -/
def crcFold (s : U16) (seq : List Byte) : U16 := seq.foldl crcStep s

/-- One shift of the polynomial form (40_checksum.md R102): `mask16(s << 1)`, XOR 0x1021 if bit 15 was set. -/
def polyShift (s : U16) : U16 := if s.getLsbD 15 then (s <<< 1) ^^^ 0x1021 else s <<< 1

/-- `poly_step(s, b)`, the bitwise MSB-first form of 40_checksum.md R102. -/
def polyStep (s : U16) (b : Byte) : U16 := polyShift^[8] (s ^^^ (b.setWidth 16 <<< 8))

/-- VERIFY's answer for a sequence: it holds a checksum (at least two bytes, D13) and its residue is 0
(40_checksum.md R107). -/
def verifies (seq : List Byte) : Bool := decide (2 ≤ seq.length) && crcFold 0x0000 seq == 0x0000

/-! ## Operations -/

/-- CRC_INIT (40_checksum.md R104). -/
def execCrcInit (s : State) : Host.Outcome State Fault Refusal :=
  returnOk (.u16 0x0000) (s.setCrc 0x0000)

/-- CRC_BYTE b (40_checksum.md R105). -/
def execCrcByte (b : Byte) (s : State) : Host.Outcome State Fault Refusal :=
  let c := crcStep s.crc b
  returnOk (.u16 c) (s.setCrc c)

/-- CHECKSUM seq (40_checksum.md R106): starts from 0, not from `S.crc`. -/
def execChecksum (seq : List Byte) (s : State) : Host.Outcome State Fault Refusal :=
  let c := crcFold 0x0000 seq
  returnOk (.u16 c) (s.setCrc c)

/-- VERIFY seq (40_checksum.md R107): a failed check is the value false, not an error. -/
def execVerify (seq : List Byte) (s : State) : Host.Outcome State Fault Refusal :=
  returnOk (.bool (verifies seq)) (s.setCrc (crcFold 0x0000 seq))

end Sys2Proof.Machine
end

