-- ==== Sys2Proof/Machine/Stuffer.lean ====
section
/-! DEFINITION. The Byte Stuffer (41_stuffer.md): STUFF and UNSTUFF. -/

namespace Sys2Proof.Machine

open Sys2Proof

/-- `stuff(x)`, 41_stuffer.md R121. -/
def stuff (cfg : Cfg) : List Byte → List Byte
  | [] => []
  | b :: x => if reserved cfg b then cfg.soe :: escapeByte b :: stuff cfg x else b :: stuff cfg x

/-- The test on the byte after an SOE: it unescapes to a reserved value, and it is that value's escape (41_stuffer.md
R123, D9). -/
def canonicalEscape (cfg : Cfg) (e : Byte) : Bool :=
  reserved cfg (unescapeByte e) && e == escapeByte (unescapeByte e)

/-- `unstuff(y)`, 41_stuffer.md R123: scanned left to right, and the first malformed position raises. -/
def unstuff (cfg : Cfg) : List Byte → Except ResultCode (List Byte)
  | [] => .ok []
  | b :: y =>
    if b = cfg.soe then
      match y with
      | [] => .error .trailingSoe
      | e :: y =>
        if canonicalEscape cfg e then (unstuff cfg y).map (unescapeByte e :: ·) else .error .badEscape
    else if reserved cfg b then .error .literalReserved
    else (unstuff cfg y).map (b :: ·)

/-- STUFF x (41_stuffer.md R121): total. -/
def execStuff (x : List Byte) (s : State) : Host.Outcome State Fault Refusal :=
  returnOk (.seq (stuff s.cfg x)) s

/-- UNSTUFF y (41_stuffer.md R123): the sequence, or the raised error with value none. -/
def execUnstuff (y : List Byte) (s : State) : Host.Outcome State Fault Refusal :=
  returnOrRaise ((unstuff s.cfg y).map .seq) s

end Sys2Proof.Machine
end

