-- ==== Sys2Proof/Machine/Codec.lean ====
section
/-! DEFINITION. The Frame Codec (42_frame_codec.md): address aliases, ENCODE and DECODE. Both run the recurrence on a
private state that starts at 0 (R151). -/

namespace Sys2Proof.Machine

open Sys2Proof

/-! ## Address aliases -/

/-- `alias_expand(d)`, 42_frame_codec.md R142. In a valid configuration at most one entry has a given canonical byte
(00_scope.md R9); in another, the first one counts: DESIGN CHOICE, safe, notes/assumptions/9.md. -/
def aliasExpand (cfg : Cfg) (d : Byte) : List Byte :=
  match cfg.aliases.find? fun a => a.canonical == d with
  | some a => [a.first, a.second]
  | none => [d]

/-- The byte `s[i]` (00_scope.md R14). DECODE reads it at indices below the length only (notes/assumptions/9.md). -/
def byteAt (s : List Byte) (i : Nat) : Byte := s.getD i 0

/-- `s[i:j]`: bytes `i` to `j-1`, empty when `j <= i` (00_scope.md R14). -/
def slice (s : List Byte) (i j : Nat) : List Byte := (s.take j).drop i

/-- `alias_fold(U, p)`, 42_frame_codec.md R143: greedy; the address and the index after it. -/
def aliasFold (cfg : Cfg) (u : List Byte) (p : Nat) : Byte × Nat :=
  if p + 1 < u.length then
    match cfg.aliases.find? fun a => a.first == byteAt u p && a.second == byteAt u (p + 1) with
    | some a => (a.canonical, p + 2)
    | none => (byteAt u p, p + 1)
  else (byteAt u p, p + 1)

/-! ## Encoding -/

/-- The protected region as ENCODE sends it (42_frame_codec.md R141, R145): only the destination is expanded (D34). -/
def protectedRegion (cfg : Cfg) (dest src cmd : Byte) (payload : List Byte) : List Byte :=
  aliasExpand cfg dest ++ [src, cmd] ++ payload

/-- A region followed by its checksum, MSB first (42_frame_codec.md R141, 20_memory.md R42). -/
def withChecksum (region : List Byte) : List Byte := region ++ u16Bytes (crcFold 0x0000 region)

/-- A region stuffed and delimited (30_encoding.md R73). -/
def wireOf (cfg : Cfg) (region : List Byte) : List Byte := [cfg.sot] ++ stuff cfg region ++ [cfg.eot]

/-- ENCODE's result: the Wire Frame, or TOO_LONG (42_frame_codec.md R145). -/
def encodeFrame (cfg : Cfg) (dest src cmd : Byte) (payload : List Byte) : Except ResultCode (List Byte) :=
  if cfg.maxPayload < payload.length then .error .tooLong
  else .ok (wireOf cfg (withChecksum (protectedRegion cfg dest src cmd payload)))

/-! ## Decoding -/

/-- The delimiter checks of 42_frame_codec.md R147: the interior of a candidate, or 0x11, 0x12, 0x13. -/
def interiorOf (cfg : Cfg) (w : List Byte) : Except ResultCode (List Byte) :=
  let n := w.length
  if n < 1 ∨ byteAt w 0 ≠ cfg.sot then .error .missingSot
  else if n < 2 ∨ byteAt w (n - 1) ≠ cfg.eot then .error .missingEot
  else
    let interior := slice w 1 (n - 1)
    if interior.any (delimiter cfg) then .error .misplacedDelimiter else .ok interior

/-- The fields of an unstuffed region that has passed length and checksum (42_frame_codec.md R147), or 0x31, 0x32. -/
def fieldsOf (cfg : Cfg) (u : List Byte) : Except ResultCode Frame :=
  let n := u.length
  let (dest, p) := aliasFold cfg u 0
  let (src, p) := aliasFold cfg u p
  if n - p < 3 then .error .short
  else
    let payload := slice u (p + 1) (n - 2)
    if cfg.maxPayload < payload.length then .error .tooLong
    else .ok ⟨dest, src, byteAt u p, payload, joinBytes (byteAt u (n - 2)) (byteAt u (n - 1))⟩

/-- The checks on an unstuffed region, length before checksum (42_frame_codec.md R147, R148; 90_conflicts.md C8). -/
def frameOfRegion (cfg : Cfg) (u : List Byte) : Except ResultCode Frame :=
  if u.length < 5 then .error .short
  else if crcFold 0x0000 u ≠ 0x0000 then .error .checksum
  else fieldsOf cfg u

/-- DECODE's result: the checks in the order of 42_frame_codec.md R148, and the first that fails decides. -/
def decodeFrame (cfg : Cfg) (w : List Byte) : Except ResultCode Frame :=
  match interiorOf cfg w with
  | .error rc => .error rc
  | .ok interior =>
    match unstuff cfg interior with
    | .error rc => .error rc
    | .ok u => frameOfRegion cfg u

/-! ## Operations -/

/-- ENCODE dest, src, cmd, payload (42_frame_codec.md R145). -/
def execEncode (dest src cmd : Byte) (payload : List Byte) (s : State) : Host.Outcome State Fault Refusal :=
  returnOrRaise ((encodeFrame s.cfg dest src cmd payload).map .seq) s

/-- DECODE w (42_frame_codec.md R147). -/
def execDecode (w : List Byte) (s : State) : Host.Outcome State Fault Refusal :=
  returnOrRaise ((decodeFrame s.cfg w).map .frame) s

end Sys2Proof.Machine
end

