-- ==== Sys2Proof/Machine/Reader.lean ====
section
/-! DEFINITION. The Transport Reader (43_reader.md): RX_BYTE, RX_PUSH, RX_TIMEOUT, RX_FLUSH, and the source's own
buffer algorithm of R170, to which R172 compares it. -/

namespace Sys2Proof.Machine

open Sys2Proof

/-- How RX_BYTE ends: with a candidate or none, or with an error (43_reader.md R171). -/
abbrev RxAnswer := Except ResultCode (Option (List Byte))

/-- RX_BYTE's effect on the state and its answer, 43_reader.md R171. On OVERFLOW the rule writes state although it
raises. -/
def rxByte (b : Byte) (s : State) : State × RxAnswer :=
  match s.rxState with
  | .hunt =>
    if b = s.cfg.sot then (s.setReader .inFrame [b], .ok none)
    else (s, .ok none)
  | .inFrame =>
    if b = s.cfg.sot then (s.setReader .inFrame [b], .ok none)
    else if b = s.cfg.eot then (s.clearReader, .ok (some (s.rxBuf ++ [b])))
    else if s.cfg.rxCap ≤ s.rxBuf.length + 1 then (s.clearReader, .error .overflow)
    else (s.setReader .inFrame (s.rxBuf ++ [b]), .ok none)

/-- The events one RX_BYTE adds to a chunk's list (43_reader.md R173). -/
def eventsOf : RxAnswer → List Event
  | .error rc => [.error rc]
  | .ok (some c) => [.candidate c]
  | .ok none => []

/-- A chunk, byte by byte in order: the state after it and its events (43_reader.md R173). -/
def rxFeed : List Byte → State → State × List Event
  | [], s => (s, [])
  | b :: chunk, s =>
    let (s₁, a) := rxByte b s
    let (s₂, es) := rxFeed chunk s₁
    (s₂, eventsOf a ++ es)

/-- The source's own algorithm (43_reader.md R170, 90_conflicts.md C6): the buffer grows from the last eviction on; at
an EOT the bytes from the most recent SOT through it are a candidate, an EOT with no SOT before it is noise, and the
buffer is evicted either way. Nothing bounds it (R172). `buf` is the buffer; the candidates in stream order. DEDUCED, safe,
notes/assumptions/14.md. -/
def sourceReader (cfg : Cfg) : List Byte → List Byte → List (List Byte)
  | _, [] => []
  | buf, b :: stream =>
    if b = cfg.eot then
      if cfg.sot ∈ buf then
        (cfg.sot :: (buf.reverse.takeWhile (· ≠ cfg.sot)).reverse ++ [b]) :: sourceReader cfg [] stream
      else sourceReader cfg [] stream
    else sourceReader cfg (buf ++ [b]) stream

/-! ## Operations -/

/-- RX_BYTE b (43_reader.md R171). -/
def execRxByte (b : Byte) (s : State) : Host.Outcome State Fault Refusal :=
  let (t, a) := rxByte b s
  returnOrRaise (a.map .cand) t

/-- RX_PUSH chunk (43_reader.md R173): its own result code is always 0x00 (D36). One atomic step (20_memory.md R46):
DEDUCED, safe, notes/assumptions/13.md. -/
def execRxPush (chunk : List Byte) (s : State) : Host.Outcome State Fault Refusal :=
  let (t, es) := rxFeed chunk s
  returnOk (.events es) t

/-- RX_TIMEOUT (43_reader.md R175): clears the reader and raises TimeoutError, always. -/
def execRxTimeout (s : State) : Host.Outcome State Fault Refusal :=
  raise .timeout s.clearReader

/-- RX_FLUSH (43_reader.md R176). -/
def execRxFlush (s : State) : Host.Outcome State Fault Refusal :=
  returnOk .none s.clearReader

end Sys2Proof.Machine
end

