-- ==== Sys2Proof/Machine/Dispatch.lean ====
section
/-! DEFINITION. One arm per operation, each a direct call of its meaning. -/

namespace Sys2Proof.Machine

open Sys2Proof

def exec (i : Instr) (s : State) : Host.Outcome State Fault Refusal :=
  match i with
  | .crcInit => Sys2Proof.Machine.execCrcInit s
  | .crcByte b => Sys2Proof.Machine.execCrcByte b s
  | .checksum seq => Sys2Proof.Machine.execChecksum seq s
  | .verify seq => Sys2Proof.Machine.execVerify seq s
  | .stuff x => Sys2Proof.Machine.execStuff x s
  | .unstuff y => Sys2Proof.Machine.execUnstuff y s
  | .encode dest src cmd payload => Sys2Proof.Machine.execEncode dest src cmd payload s
  | .decode w => Sys2Proof.Machine.execDecode w s
  | .rxByte b => Sys2Proof.Machine.execRxByte b s
  | .rxPush chunk => Sys2Proof.Machine.execRxPush chunk s
  | .rxTimeout => Sys2Proof.Machine.execRxTimeout s
  | .rxFlush => Sys2Proof.Machine.execRxFlush s

end Sys2Proof.Machine
end

