-- ==== Sys2Proof/Machine/Fetch.lean ====
section
/-! DEFINITION. Taking the host's next action. The FCV fetches no instructions (10_state.md R22); the host issues
transactions, or their serialized bytes (30_encoding.md R60, R63), one at a time (00_scope.md R5). -/

namespace Sys2Proof.Machine

open Sys2Proof

/-- What the next step has to do: run an operation in the state that has taken it, or a step already finished. -/
inductive Fetched where
  | run (i : Instr) (s : State)
  | finished (o : Host.Outcome State Fault Refusal)

/-- Takes a transaction (30_encoding.md R60); `s` is the state after it left the queue. -/
def takeTransaction (t : Transaction) (s : State) : Fetched :=
  match decodeTransaction t with
  | .instr i => .run i s
  | .illegal => .finished (illegalCommand s)
  | .wrongShape => .finished (.refused .operandShape)

/-- Takes a transaction from the serialized command stream (30_encoding.md R63). Where no whole transaction has
arrived, none has been issued, and the block holds its state (60_exceptions.md R215): DESIGN CHOICE, safe,
notes/assumptions/6.md. -/
def takeSerialized (s : State) : Fetched :=
  match decode s.stream with
  | .instr i rest => .run i (s.setStream rest)
  | .illegal _ rest => .finished (illegalCommand (s.setStream rest))
  | .incomplete => .finished (.next s)
  | .empty => .finished (.next s)

/-- The next thing the block does. A host uses the queue of actions or the byte stream; where both hold something, the
queue goes first: DESIGN CHOICE, safe, notes/assumptions/4.md. -/
def fetch (s : State) : Fetched :=
  match s.pending with
  | .transaction t :: rest => takeTransaction t (s.setPending rest)
  | .reset cfg :: rest => .finished (hostReset cfg (s.setPending rest))
  | [] => takeSerialized s

end Sys2Proof.Machine
end

