-- ==== Sys2Proof/Machine/Step.lean ====
section
/-! DEFINITION. One step: the block takes the host's next action and performs it to completion (00_scope.md R5, R7;
30_encoding.md R60). -/

namespace Sys2Proof.Machine

open Sys2Proof

/-- One transaction is one step (30_encoding.md R60). With nothing to take, the block holds its state
(60_exceptions.md R215). -/
def step (s : State) : Host.Outcome State Fault Refusal :=
  match fetch s with
  | .run i t => exec i t
  | .finished o => o

/-- The host issues the serialized transaction whose first `nbits` bits are `w`, further bits zero, and nothing else
(notes/assumptions/4.md). -/
def State.withFetchWord (s : State) (nbits w : Nat) : State :=
  { s with pending := [], stream := tableStream nbits w }

end Sys2Proof.Machine
end

