-- ==== Sys2Proof/Machine/Pseudo.lean ====
section
/-! DEFINITION. A host's sequence of transactions (70_reset_and_hazards.md R242), the pseudo-operations of
30_encoding.md R72, and the listing syntax of R71. -/

namespace Sys2Proof.Machine

open Sys2Proof

/-! ## Sequences of transactions -/

/-- The operations of a list one after another, each seeing every effect of the earlier ones (20_memory.md R49). -/
def execAll : List Instr → State → Host.Outcome State Fault Refusal
  | [], s => .next s
  | i :: is, s =>
    match exec i s with
    | .next t => execAll is t
    | .fault r => .fault r
    | .refused r => .refused r

/-! ## Pseudo-operations -/

/-- `CRC_SEQ [b0, ..., bn]` (30_encoding.md R72): no CRC_INIT. -/
def crcSeq (bs : List Byte) : List Instr := bs.map .crcByte

/-- `NEW_EXCHANGE` (30_encoding.md R72, 70_reset_and_hazards.md R235). -/
def newExchange : List Instr := [.rxFlush]

/-- The candidates of an event list, in event order. -/
def candidatesOf : List Event → List (List Byte)
  | [] => []
  | .candidate c :: es => c :: candidatesOf es
  | .error _ :: es => candidatesOf es

/-- `RECV [bytes]` (30_encoding.md R72, 43_reader.md R177): RX_PUSH, then DECODE for each candidate of its result. The
expansion depends on the result, so on the state RX_PUSH starts in. -/
def recv (chunk : List Byte) (s : State) : List Instr :=
  .rxPush chunk :: (candidatesOf (rxFeed chunk s).2).map .decode

/-! ## Listing syntax -/

/-- The mnemonic (30_encoding.md R66). -/
def mnemonic : Instr → String
  | .crcInit => "CRC_INIT"
  | .crcByte _ => "CRC_BYTE"
  | .checksum _ => "CHECKSUM"
  | .verify _ => "VERIFY"
  | .stuff _ => "STUFF"
  | .unstuff _ => "UNSTUFF"
  | .encode _ _ _ _ => "ENCODE"
  | .decode _ => "DECODE"
  | .rxByte _ => "RX_BYTE"
  | .rxPush _ => "RX_PUSH"
  | .rxTimeout => "RX_TIMEOUT"
  | .rxFlush => "RX_FLUSH"

/-- One hexadecimal digit, upper case. -/
def hexDigit (n : Nat) : Char := "0123456789ABCDEF".toList.getD n '0'

/-- A byte as `0xHH` (30_encoding.md R71). -/
def hexByte (b : Byte) : String := String.ofList ['0', 'x', hexDigit (b.toNat / 16), hexDigit (b.toNat % 16)]

/-- A sequence as `[0xHH, 0xHH, ...]`, `[]` if empty (30_encoding.md R71). -/
def hexSeq (s : List Byte) : String := "[" ++ String.intercalate ", " (s.map hexByte) ++ "]"

/-- A transaction in the listing syntax of 30_encoding.md R71. Spacing and digits as in its examples: DESIGN CHOICE,
safe, notes/assumptions/16.md. -/
def listing (i : Instr) : String :=
  match operandOf i with
  | .none => mnemonic i
  | .byte b => mnemonic i ++ " " ++ hexByte b
  | .seq s => mnemonic i ++ " " ++ hexSeq s
  | .frame dest src cmd payload =>
    mnemonic i ++ " dest=" ++ hexByte dest ++ ", src=" ++ hexByte src ++ ", cmd=" ++ hexByte cmd
      ++ ", payload=" ++ hexSeq payload

end Sys2Proof.Machine
end

