-- ==== Sys2Proof/Safety.lean ====
section
/-! DEFINITION. The terms claims are stated in: the state invariant, what a host may have outstanding, and what results
an operation may return. -/

namespace Sys2Proof.Machine

open Sys2Proof

/-- The reader invariant of 10_state.md R33. -/
abbrev ReaderInv (s : State) : Prop :=
  (s.rxState = .hunt → s.rxBuf = []) ∧
  (s.rxState = .inFrame →
    1 ≤ s.rxBuf.length ∧ s.rxBuf.length ≤ s.cfg.rxCap - 1 ∧ s.rxBuf.head? = some s.cfg.sot ∧
      ∀ b ∈ s.rxBuf.tail, b ≠ s.cfg.sot ∧ b ≠ s.cfg.eot)

/-- The states a run can be in: a configuration that meets `CFG_VALID` (00_scope.md R9) and the reader invariant. -/
abbrev StateInv (s : State) : Prop := cfgValid s.cfg = true ∧ ReaderInv s

/-- The sentinels of the default configuration (00_scope.md R8, 30_encoding.md R74); the other parameters are
arbitrary. -/
abbrev DefaultSentinels (cfg : Cfg) : Prop :=
  cfg.sot = 0x0D ∧ cfg.eot = 0x0A ∧ cfg.soe = 0x5E ∧ cfg.xon = 0x11 ∧ cfg.xoff = 0x13

/-- A host action that meets the host's duties of 00_scope.md R6: a transaction whose operand has the shape its
command word selects (or whose command word is illegal, which has a result), or a reset with a valid configuration. -/
def properAction : HostAction → Bool
  | .transaction t => decide (decodeTransaction t ≠ .wrongShape)
  | .reset cfg => cfgValid cfg

/-- The result codes an operation may return (30_encoding.md R70, 60_exceptions.md R201). -/
def codesOf : Instr → List ResultCode
  | .crcInit => [.ok]
  | .crcByte _ => [.ok]
  | .checksum _ => [.ok]
  | .verify _ => [.ok]
  | .stuff _ => [.ok]
  | .unstuff _ => [.ok, .trailingSoe, .badEscape, .literalReserved]
  | .encode _ _ _ _ => [.ok, .tooLong]
  | .decode _ =>
    [.ok, .missingSot, .missingEot, .misplacedDelimiter, .trailingSoe, .badEscape, .literalReserved, .checksum,
      .short, .tooLong]
  | .rxByte _ => [.ok, .overflow]
  | .rxPush _ => [.ok]
  | .rxTimeout => [.timeout]
  | .rxFlush => [.ok]

/-- The value shapes of 30_encoding.md R65. -/
inductive ValueShape where
  | none
  | u16
  | bool
  | seq
  | frame
  | cand
  | events
deriving DecidableEq, Repr

/-- The shape of a value (30_encoding.md R65). -/
def shapeOfValue : Value → ValueShape
  | .none => .none
  | .u16 _ => .u16
  | .bool _ => .bool
  | .seq _ => .seq
  | .frame _ => .frame
  | .cand _ => .cand
  | .events _ => .events

/-- The value shape an operation returns on success (30_encoding.md R66, column "value"). -/
def shapeReturned : Instr → ValueShape
  | .crcInit => .u16
  | .crcByte _ => .u16
  | .checksum _ => .u16
  | .verify _ => .bool
  | .stuff _ => .seq
  | .unstuff _ => .seq
  | .encode _ _ _ _ => .seq
  | .decode _ => .frame
  | .rxByte _ => .cand
  | .rxPush _ => .events
  | .rxTimeout => .none
  | .rxFlush => .none

/-- `n` steps one after another, ending early at a refusal (70_reset_and_hazards.md R242). -/
def runSteps : Nat → State → Host.Outcome State Fault Refusal
  | 0, s => .next s
  | n + 1, s =>
    match step s with
    | .next t => runSteps n t
    | .fault r => .fault r
    | .refused r => .refused r

/-- The events a list of RX_BYTE results stands for (43_reader.md R173). -/
def eventsOfResults : List Result → List Event
  | [] => []
  | r :: rs =>
    (if r.rc ≠ .ok then [.error r.rc]
     else match r.value with
       | .cand (some c) => [.candidate c]
       | _ => []) ++ eventsOfResults rs

/-- The events a list of RX_PUSH results holds, concatenated (43_reader.md R174). -/
def eventsOfPushes : List Result → List Event
  | [] => []
  | r :: rs =>
    (match r.value with
      | .events es => es
      | _ => []) ++ eventsOfPushes rs

end Sys2Proof.Machine
end

