-- ==== Sys2Proof/Certificates/Slice0/Obligations.lean ====
section
/-! DEFINITION. The statements for the provers, from the numbered rules of spec/. In every statement the configuration
is the state's own and arbitrary, except where a premise says otherwise. `exec i s = .next t` says that the operation
completes and that `t` is the whole state after it: every field a record update does not name is unchanged. Where a
statement has the host's queue hold an action while serialized bytes may stand beside it, that the queue goes first is
the model's choice (notes/assumptions/4.md). -/

open Sys2Proof Sys2Proof.Machine

/-! ## Encoding and the command interface -/

/-- One serialized transaction of every opcode-table row, written out from 30_encoding.md R63 and R66
(95_test_vectors.md V-L2-42), decodes to its operation. -/
def Obligations.WrittenOutWordsDecode : Prop :=
  decode [0x01] = .instr .crcInit [] ∧
  decode [0x02, 0x42] = .instr (.crcByte 0x42) [] ∧
  decode [0x03, 0x00, 0x05, 0x42, 0x11, 0x04, 0x0F, 0x06] = .instr (.checksum [0x42, 0x11, 0x04, 0x0F, 0x06]) [] ∧
  decode [0x04, 0x00, 0x02, 0x00, 0x00] = .instr (.verify [0x00, 0x00]) [] ∧
  decode [0x05, 0x00, 0x01, 0x0D] = .instr (.stuff [0x0D]) [] ∧
  decode [0x06, 0x00, 0x01, 0x5E] = .instr (.unstuff [0x5E]) [] ∧
  decode [0x07, 0x01, 0x02, 0x03, 0x00, 0x00] = .instr (.encode 0x01 0x02 0x03 []) [] ∧
  decode [0x08, 0x00, 0x02, 0x0D, 0x0A] = .instr (.decode [0x0D, 0x0A]) [] ∧
  decode [0x09, 0x0D] = .instr (.rxByte 0x0D) [] ∧
  decode [0x0A, 0x00, 0x02, 0x0D, 0x0A] = .instr (.rxPush [0x0D, 0x0A]) [] ∧
  decode [0x0B] = .instr .rxTimeout [] ∧
  decode [0x0C] = .instr .rxFlush []

/-- 30_encoding.md R67, R68: a byte is illegal exactly where its OPSEL is 0x0 or 0xD to 0xF or its RSV is not 0, which
is exactly where it is none of 0x01 to 0x0C; and each of those twelve is the command word of an operation. -/
def Obligations.CommandWordsAreTwelveOrIllegal : Prop :=
  ∀ (cw : Byte) (rest : List Byte),
    (decode (cw :: rest) = .illegal cw rest ↔ (opsel cw ∈ [0x0#4, 0xD#4, 0xE#4, 0xF#4] ∨ rsv cw ≠ 0)) ∧
    (decode (cw :: rest) = .illegal cw rest ↔ ¬ (0x01 ≤ cw ∧ cw ≤ 0x0C)) ∧
    ((∃ i : Instr, commandWord i = cw) ↔ (0x01 ≤ cw ∧ cw ≤ 0x0C))

/-- 30_encoding.md R67, in both forms of the command interface: the result is `(0x50, none)`, no operand bytes are
consumed, an operand of a transaction is not examined, and no state changes. -/
def Obligations.IllegalCommandWordChangesNoState : Prop :=
  resultByte .illegalOp = 0x50 ∧
  ∀ (s : State) (cw : Byte), (opsel cw ∈ [0x0#4, 0xD#4, 0xE#4, 0xF#4] ∨ rsv cw ≠ 0) →
    (∀ rest : List Byte, s.pending = [] → s.stream = cw :: rest →
      step s = .next { s with stream := rest, results := s.results ++ [⟨.illegalOp, .none⟩] }) ∧
    (∀ (o : Operand) (rest : List HostAction), s.pending = .transaction ⟨cw, o⟩ :: rest →
      step s = .next { s with pending := rest, results := s.results ++ [⟨.illegalOp, .none⟩] })

/-- Decode and encode agree: every operation the serialized form can express, with every operand, whatever follows
(30_encoding.md R63, R66). -/
def Obligations.DecodeOfEncodeIsTheInstruction : Prop :=
  ∀ (i : Instr) (rest : List Byte), i.wf = true → decode (encode i ++ rest) = .instr i rest

/-- The other direction: a byte stream that decodes to an operation is that operation's encoding and what follows, and
the operation is one the serialized form can express. So each operation has one serialized form (30_encoding.md R63,
R68). -/
def Obligations.EncodeOfDecodeIsTheStream : Prop :=
  ∀ (bs : List Byte) (i : Instr) (rest : List Byte),
    decode bs = .instr i rest → bs = encode i ++ rest ∧ i.wf = true

/-- At transaction level every operation, its operand of any length, is one transaction `(CW, operand)` and conversely
(30_encoding.md R60, R62, R66; D25). -/
def Obligations.TransactionAndInstructionAgree : Prop :=
  (∀ i : Instr, decodeTransaction (transactionOf i) = .instr i) ∧
  ∀ (t : Transaction) (i : Instr), decodeTransaction t = .instr i → t = transactionOf i

/-- Where the serialized command stream begins with an operation, step is exec of it, the operation's bytes consumed. -/
def Obligations.StepRunsTheDecodedInstruction : Prop :=
  ∀ (s : State) (i : Instr) (rest : List Byte), s.pending = [] → decode s.stream = .instr i rest →
    step s = exec i { s with stream := rest }

/-- Where the host's next action is a transaction, step is exec of its operation, the action taken. The serialized stream
may hold bytes beside it: that the step takes the queue's transaction then is the model's choice
(notes/assumptions/4.md), not a consequence of R60 and R49. -/
def Obligations.StepRunsTheHostsTransaction : Prop :=
  ∀ (s : State) (i : Instr) (rest : List HostAction), s.pending = .transaction (transactionOf i) :: rest →
    step s = exec i { s with pending := rest }

/-- With no whole transaction to take, the block holds its state (60_exceptions.md R215; that a transaction not yet
complete is not yet issued is the model's choice, notes/assumptions/6.md). -/
def Obligations.StepHoldsStateBetweenTransactions : Prop :=
  ∀ s : State, s.pending = [] → (decode s.stream = .empty ∨ decode s.stream = .incomplete) → step s = .next s

/-- Running the serialized form of a list of operations, a step each, is running the operations one after another
(30_encoding.md R63, 20_memory.md R49). -/
def Obligations.SerializedProgramRunsInOrder : Prop :=
  ∀ (is : List Instr) (s : State) (tail : List Byte), (∀ i ∈ is, i.wf = true) → s.pending = [] →
    s.stream = is.flatMap encode ++ tail →
      runSteps is.length s = execAll is { s with stream := tail }

/-- A received byte is data, even when it equals a command-word value (20_memory.md R52): no operation touches the
commands the host has outstanding. -/
def Obligations.OperationsLeaveHostCommandsAlone : Prop :=
  ∀ (i : Instr) (s t : State), exec i s = .next t → t.pending = s.pending ∧ t.stream = s.stream

/-- No step of a host that meets its duties is refused, and none faults (60_exceptions.md R200, R211). -/
def Obligations.StepCompletesForProperHost : Prop :=
  ∀ s : State, (∀ a ∈ s.pending, properAction a = true) → ∃ t : State, step s = .next t

/-! ## Results -/

/-- Every operation, in every state, completes with exactly one result, whose value is `none` on an error and has the
shape the operation names otherwise (30_encoding.md R60, R65, R66). -/
def Obligations.EveryOperationReturnsOneResult : Prop :=
  ∀ (i : Instr) (s : State), ∃ (t : State) (r : Result), exec i s = .next t ∧ t.results = s.results ++ [r] ∧
    (r.rc ≠ .ok → r.value = .none) ∧ (r.rc = .ok → shapeOfValue r.value = shapeReturned i)

/-- The result codes an operation returns are those 60_exceptions.md R201 lists for it, and the only error event of
RX_PUSH is OVERFLOW. -/
def Obligations.ErrorsAreOnlyThoseListed : Prop :=
  ∀ (i : Instr) (s t : State) (r : Result), exec i s = .next t → t.results = s.results ++ [r] →
    r.rc ∈ codesOf i ∧ ∀ (es : List Event) (rc : ResultCode), r.value = .events es → .error rc ∈ es → rc = .overflow

/-- The result codes of 30_encoding.md R70 as bytes, no two the same, with kind and cause as R69 places them. -/
def Obligations.ResultCodeBytesAndFields : Prop :=
  ([.ok, .missingSot, .missingEot, .misplacedDelimiter, .trailingSoe, .badEscape, .literalReserved, .overflow,
      .checksum, .short, .tooLong, .timeout, .illegalOp] : List ResultCode).map resultByte =
    [0x00, 0x11, 0x12, 0x13, 0x14, 0x15, 0x16, 0x17, 0x20, 0x31, 0x32, 0x40, 0x50] ∧
  (∀ a b : ResultCode, resultByte a = resultByte b → a = b) ∧
  ∀ a : ResultCode, resultByte a = (resultKind a).setWidth 8 <<< 4 ||| (resultCause a).setWidth 8

/-- 30_encoding.md R65, the column "serialized after `RC`", with every sequence short enough for `LEN16`; and two results
of one operation are told apart by their bytes, whatever bytes follow them. -/
def Obligations.SerializedResultsFollowTheTable : Prop :=
  (∀ rc : ResultCode, serializeResult ⟨rc, .none⟩ = some [resultByte rc]) ∧
  (∀ c : U16, serializeResult ⟨.ok, .u16 c⟩ = some [0x00, hiByte c, loByte c]) ∧
  (∀ b : Bool, serializeResult ⟨.ok, .bool b⟩ = some [0x00, if b then 0x01 else 0x00]) ∧
  (∀ x : List Byte, x.length ≤ 0xFFFF → serializeResult ⟨.ok, .seq x⟩ = some (0x00 :: len16 x.length ++ x)) ∧
  (∀ f : Frame, f.payload.length ≤ 0xFFFF → serializeResult ⟨.ok, .frame f⟩ =
    some ([0x00, f.dest, f.src, f.cmd] ++ len16 f.payload.length ++ f.payload ++ [hiByte f.checksum, loByte f.checksum])) ∧
  serializeResult ⟨.ok, .cand none⟩ = some [0x00, 0x00] ∧
  (∀ c : List Byte, c.length ≤ 0xFFFF →
    serializeResult ⟨.ok, .cand (some c)⟩ = some ([0x00, 0x01] ++ len16 c.length ++ c)) ∧
  (∀ es : List Event, es.length ≤ 0xFFFF → (∀ c : List Byte, .candidate c ∈ es → c.length ≤ 0xFFFF) →
    serializeResult ⟨.ok, .events es⟩ = some ([0x00] ++ len16 es.length ++ es.flatMap fun e =>
      match e with
      | .candidate c => 0x00 :: len16 c.length ++ c
      | .error rc => [resultByte rc])) ∧
  ∀ (i : Instr) (s s' t t' : State) (r r' : Result) (x x' rest rest' : List Byte),
    exec i s = .next t → t.results = s.results ++ [r] → exec i s' = .next t' → t'.results = s'.results ++ [r'] →
    serializeResult r = some x → serializeResult r' = some x' → x ++ rest = x' ++ rest' → r = r' ∧ rest = rest'

/-- Result codes are not kept and no error is sticky (10_state.md R23): two states that agree on `(CFG, S)` give the
same result and the same `(CFG, S)`, whatever results came before and whatever the host has outstanding. -/
def Obligations.EarlierResultsHaveNoInfluence : Prop :=
  ∀ (i : Instr) (s t : State), s.cfg = t.cfg → s.crc = t.crc → s.rxState = t.rxState → s.rxBuf = t.rxBuf →
    ∃ (s' t' : State) (r : Result), exec i s = .next s' ∧ exec i t = .next t' ∧
      s'.results = s.results ++ [r] ∧ t'.results = t.results ++ [r] ∧
      s'.cfg = t'.cfg ∧ s'.crc = t'.crc ∧ s'.rxState = t'.rxState ∧ s'.rxBuf = t'.rxBuf

/-! ## Configuration, reset and invariant -/

/-- 00_scope.md R9: what `CFG_VALID` is, and that a reset with any other configuration is refused. -/
def Obligations.ConfigurationValidityAndRefusal : Prop :=
  (∀ cfg : Cfg, cfgValid cfg = true ↔
    (cfg.sot ≠ cfg.eot ∧ cfg.sot ≠ cfg.xon ∧ cfg.sot ≠ cfg.xoff ∧ cfg.sot ≠ cfg.soe ∧ cfg.eot ≠ cfg.xon ∧
      cfg.eot ≠ cfg.xoff ∧ cfg.eot ≠ cfg.soe ∧ cfg.xon ≠ cfg.xoff ∧ cfg.xon ≠ cfg.soe ∧ cfg.xoff ≠ cfg.soe) ∧
    (∀ (j k : Fin cfg.aliases.length), j ≠ k →
      cfg.aliases[j].canonical ≠ cfg.aliases[k].canonical ∧
      (cfg.aliases[j].first, cfg.aliases[j].second) ≠ (cfg.aliases[k].first, cfg.aliases[k].second)) ∧
    2 * (cfg.maxPayload + 7) + 2 ≤ cfg.rxCap) ∧
  ∀ (s : State) (cfg : Cfg) (rest : List HostAction), s.pending = .reset cfg :: rest → cfgValid cfg = false →
    step s = .refused .invalidConfiguration

/-- 70_reset_and_hazards.md R230, R231: a reset with a valid configuration latches it and puts every piece of run-time
state at the reset values, whatever state the block was in. That the host's outstanding commands and earlier results
stay (notes/assumptions/8.md), and that the reset adds no result (notes/assumptions/17.md), is the model's choice. -/
def Obligations.ResetLatchesConfigurationAndClears : Prop :=
  (∀ cfg : Cfg, (State.resetWith cfg).cfg = cfg ∧ (State.resetWith cfg).crc = 0x0000 ∧
    (State.resetWith cfg).rxState = .hunt ∧ (State.resetWith cfg).rxBuf = []) ∧
  ∀ (s : State) (cfg : Cfg) (rest : List HostAction), s.pending = .reset cfg :: rest → cfgValid cfg = true →
    step s = .next { s with cfg := cfg, crc := 0x0000, rxState := .hunt, rxBuf := [], pending := rest }

/-- 70_reset_and_hazards.md R232: a reset with the same configuration differs from CRC_INIT followed by RX_FLUSH in
nothing of `(CFG, S)`. -/
def Obligations.ResetEqualsInitThenFlush : Prop :=
  ∀ s : State, cfgValid s.cfg = true →
    ∃ t u : State, execAll [.crcInit, .rxFlush] s = .next t ∧ hostReset s.cfg s = .next u ∧
      t.cfg = u.cfg ∧ t.crc = u.crc ∧ t.rxState = u.rxState ∧ t.rxBuf = u.rxBuf

/-- 10_state.md R29 and 70_reset_and_hazards.md R232: no operation writes any `CFG` field, and a step changes the
configuration only by a reset. -/
def Obligations.OnlyResetChangesTheConfiguration : Prop :=
  (∀ (i : Instr) (s t : State), exec i s = .next t → t.cfg = s.cfg) ∧
  ∀ s t : State, step s = .next t →
    t.cfg = s.cfg ∨ ∃ (cfg : Cfg) (rest : List HostAction), s.pending = .reset cfg :: rest ∧ t.cfg = cfg

/-- The invariant holds after every reset with a valid configuration, and at `State.reset`. -/
def Obligations.InvariantHoldsAtReset : Prop :=
  (∀ cfg : Cfg, cfgValid cfg = true → StateInv (State.resetWith cfg)) ∧ StateInv State.reset

/-- The invariant of 10_state.md R33, with `CFG_VALID`, is kept by every operation and by every step. -/
def Obligations.InvariantIsKeptByEveryStep : Prop :=
  (∀ (i : Instr) (s t : State), StateInv s → exec i s = .next t → StateInv t) ∧
  ∀ s t : State, StateInv s → step s = .next t → StateInv t

/-! ## Checksum Engine -/

/-- 40_checksum.md R100, on natural numbers, each line masked to 16 bits and reading the line before it. -/
def Obligations.CrcStepIsTheRecurrence : Prop :=
  ∀ (s : U16) (b : Byte),
    let t₁ := ((s.toNat >>> 8) ||| (s.toNat <<< 8)) % 65536
    let t₂ := t₁ ^^^ b.toNat
    let t₃ := t₂ ^^^ ((t₂ &&& 0xFF) >>> 4)
    let t₄ := (t₃ ^^^ (t₃ <<< 12)) % 65536
    let t₅ := (t₄ ^^^ ((t₄ &&& 0xFF) <<< 5)) % 65536
    (crcStep s b).toNat = t₅

/-- 40_checksum.md R102: the recurrence is the MSB-first CRC with polynomial 0x1021, in every state. -/
def Obligations.CrcStepIsThePolynomialForm : Prop :=
  ∀ (s : U16) (b : Byte), crcStep s b = polyStep s b

/-- 40_checksum.md R103, the residue law. -/
def Obligations.ResidueIsZeroExactlyForTheChecksum : Prop :=
  ∀ (m : List Byte) (x : U16), crcFold 0x0000 (m ++ [hiByte x, loByte x]) = 0x0000 ↔ x = crcFold 0x0000 m

/-- 40_checksum.md R104. -/
def Obligations.CrcInitResult : Prop :=
  commandWord .crcInit = 0x01 ∧
  ∀ s : State, exec .crcInit s = .next { s with crc := 0x0000, results := s.results ++ [⟨.ok, .u16 0x0000⟩] }

/-- 40_checksum.md R105, with its corner cases: a bijection of the state for a fixed byte, injective in the byte for a
fixed state. -/
def Obligations.CrcByteResult : Prop :=
  (∀ (b : Byte) (s : State), commandWord (.crcByte b) = 0x02 ∧
    exec (.crcByte b) s =
      .next { s with crc := crcStep s.crc b, results := s.results ++ [⟨.ok, .u16 (crcStep s.crc b)⟩] }) ∧
  crcStep 0x0000 0x00 = 0x0000 ∧
  (∀ b : Byte, Function.Bijective fun s : U16 => crcStep s b) ∧
  ∀ s : U16, Function.Injective fun b : Byte => crcStep s b

/-- 40_checksum.md R106: from 0, whatever `S.crc` held. -/
def Obligations.ChecksumResult : Prop :=
  ∀ (seq : List Byte) (s : State), commandWord (.checksum seq) = 0x03 ∧
    exec (.checksum seq) s =
      .next { s with crc := crcFold 0x0000 seq, results := s.results ++ [⟨.ok, .u16 (crcFold 0x0000 seq)⟩] }

/-- 40_checksum.md R107: the truth value, the residue left in `S.crc`, and that a sequence ending in two checksum bytes
is accepted exactly where they are the checksum of what stands before them. -/
def Obligations.VerifyResult : Prop :=
  ∀ (seq : List Byte) (s : State), commandWord (.verify seq) = 0x04 ∧
    exec (.verify seq) s =
      .next { s with
        crc := crcFold 0x0000 seq
        results := s.results ++ [⟨.ok, .bool (decide (2 ≤ seq.length ∧ crcFold 0x0000 seq = 0x0000))⟩] } ∧
    ∀ (m : List Byte) (c : U16), seq = m ++ [hiByte c, loByte c] →
      ((2 ≤ seq.length ∧ crcFold 0x0000 seq = 0x0000) ↔ c = crcFold 0x0000 m)

/-- 40_checksum.md R109: VERIFY answers false for every single-bit corruption of a sequence it accepts. -/
def Obligations.SingleBitErrorIsDetected : Prop :=
  ∀ (seq : List Byte) (s : State) (i k : Nat) (b : Byte), crcFold 0x0000 seq = 0x0000 → seq[i]? = some b → k < 8 →
    crcFold 0x0000 (seq.set i (b ^^^ (0x01#8 <<< k))) ≠ 0x0000 ∧
    ∃ t : State, exec (.verify (seq.set i (b ^^^ (0x01#8 <<< k)))) s = .next t ∧
      t.results = s.results ++ [⟨.ok, .bool false⟩]

/-- 30_encoding.md R72: CRC_INIT and then CRC_SEQ leave `S.crc` equal to the result of CHECKSUM, and touch nothing else
of `(CFG, S)`. -/
def Obligations.IncrementalChecksumIsChecksum : Prop :=
  ∀ (x : List Byte) (s : State), ∃ t u : State,
    execAll (.crcInit :: crcSeq x) s = .next t ∧ exec (.checksum x) s = .next u ∧
    u.results = s.results ++ [⟨.ok, .u16 t.crc⟩] ∧
    t.cfg = s.cfg ∧ t.rxState = s.rxState ∧ t.rxBuf = s.rxBuf

/-- Frame of the Checksum Engine: CRC_INIT, CRC_BYTE, CHECKSUM and VERIFY leave the configuration and the reader alone
(10_state.md R30, R31; 40_checksum.md R104). -/
def Obligations.ChecksumOperationsFrame : Prop :=
  ∀ (i : Instr) (s t : State),
    (i = .crcInit ∨ (∃ b, i = .crcByte b) ∨ (∃ x, i = .checksum x) ∨ (∃ x, i = .verify x)) → exec i s = .next t →
      t.cfg = s.cfg ∧ t.rxState = s.rxState ∧ t.rxBuf = s.rxBuf ∧ t.pending = s.pending ∧ t.stream = s.stream

/-! ## Byte Stuffer -/

/-- 41_stuffer.md R121, with its corner cases on the length. -/
def Obligations.StuffResult : Prop :=
  ∀ (x : List Byte) (s : State), commandWord (.stuff x) = 0x05 ∧
    ∃ y : List Byte,
      exec (.stuff x) s = .next { s with results := s.results ++ [⟨.ok, .seq y⟩] } ∧
      y = x.flatMap (fun b =>
        if b ∈ [s.cfg.sot, s.cfg.eot, s.cfg.xon, s.cfg.xoff, s.cfg.soe] then [s.cfg.soe, b ||| 0x40] else [b]) ∧
      y.length = x.length + x.countP (reserved s.cfg) ∧ y.length ≤ 2 * x.length

/-- 41_stuffer.md R122: delimiter safety, and that its condition holds under `WF_ESC` and for the default sentinels. The
default XON and XOFF are the spec's own (notes/assumptions/2.md). -/
def Obligations.StuffedBytesHoldNoDelimiter : Prop :=
  (∀ cfg : Cfg, cfgValid cfg = true →
    (∀ r ∈ reservedSet cfg, r ||| 0x40 ∉ [cfg.sot, cfg.eot, cfg.xon, cfg.xoff]) →
    ∀ (x : List Byte), ∀ b ∈ stuff cfg x, b ∉ [cfg.sot, cfg.eot, cfg.xon, cfg.xoff]) ∧
  ∀ cfg : Cfg, (wfEsc cfg = true ∨ DefaultSentinels cfg) →
    ∀ r ∈ reservedSet cfg, r ||| 0x40 ∉ [cfg.sot, cfg.eot, cfg.xon, cfg.xoff]

/-- 41_stuffer.md R123: the operation in every state, and each turn of the rule's loop. -/
def Obligations.UnstuffResult : Prop :=
  (∀ (y : List Byte) (s : State), commandWord (.unstuff y) = 0x06 ∧
    (∀ x, unstuff s.cfg y = .ok x →
      exec (.unstuff y) s = .next { s with results := s.results ++ [⟨.ok, .seq x⟩] }) ∧
    (∀ rc, unstuff s.cfg y = .error rc →
      exec (.unstuff y) s = .next { s with results := s.results ++ [⟨rc, .none⟩] })) ∧
  ∀ cfg : Cfg,
    unstuff cfg [] = .ok [] ∧
    unstuff cfg [cfg.soe] = .error .trailingSoe ∧
    (∀ (e : Byte) (y : List Byte),
      unstuff cfg (cfg.soe :: e :: y) =
        if e &&& 0x3F ∈ [cfg.sot, cfg.eot, cfg.xon, cfg.xoff, cfg.soe] ∧ e = (e &&& 0x3F) ||| 0x40 then
          (unstuff cfg y).map ((e &&& 0x3F) :: ·)
        else .error .badEscape) ∧
    ∀ (b : Byte) (y : List Byte), b ≠ cfg.soe →
      unstuff cfg (b :: y) =
        if b ∈ [cfg.sot, cfg.eot, cfg.xon, cfg.xoff, cfg.soe] then .error .literalReserved
        else (unstuff cfg y).map (b :: ·)

/-- 41_stuffer.md R123, 60_exceptions.md R206: whatever stands well-formed before it, the leftmost malformed position
decides the error, and nothing after it is looked at. -/
def Obligations.UnstuffReportsTheLeftmostFault : Prop :=
  ∀ (s : State) (p x : List Byte), unstuff s.cfg p = .ok x →
    exec (.unstuff (p ++ [s.cfg.soe])) s = .next { s with results := s.results ++ [⟨.trailingSoe, .none⟩] } ∧
    (∀ (e : Byte) (rest : List Byte), canonicalEscape s.cfg e = false →
      exec (.unstuff (p ++ s.cfg.soe :: e :: rest)) s =
        .next { s with results := s.results ++ [⟨.badEscape, .none⟩] }) ∧
    (∀ (b : Byte) (rest : List Byte), reserved s.cfg b = true → b ≠ s.cfg.soe →
      exec (.unstuff (p ++ b :: rest)) s =
        .next { s with results := s.results ++ [⟨.literalReserved, .none⟩] }) ∧
    (∀ q y : List Byte, unstuff s.cfg q = .ok y →
      exec (.unstuff (p ++ q)) s = .next { s with results := s.results ++ [⟨.ok, .seq (x ++ y)⟩] })

/-- 41_stuffer.md R124, law 1: in every configuration, stuffing what UNSTUFF returned gives back its operand. -/
def Obligations.StuffInvertsUnstuff : Prop :=
  ∀ (y x : List Byte) (s t : State), exec (.unstuff y) s = .next t → t.results = s.results ++ [⟨.ok, .seq x⟩] →
    exec (.stuff x) t = .next { t with results := t.results ++ [⟨.ok, .seq y⟩] }

/-- 41_stuffer.md R124, laws 2 and 3: UNSTUFF inverts STUFF for every operand that holds no reserved byte of 0x40 or
above, in every configuration; under `WF_ESC` that is every operand. Law 3's sentence on operands that hold such a byte
is stated for the default sentinels, in the next statement (notes/assumptions/12.md). -/
def Obligations.UnstuffInvertsStuff : Prop :=
  (∀ (x : List Byte) (s : State), (∀ b ∈ x, reserved s.cfg b = true → b < 0x40) →
    exec (.unstuff (stuff s.cfg x)) s = .next { s with results := s.results ++ [⟨.ok, .seq x⟩] }) ∧
  ∀ (x : List Byte) (s : State), wfEsc s.cfg = true →
    exec (.unstuff (stuff s.cfg x)) s = .next { s with results := s.results ++ [⟨.ok, .seq x⟩] }

/-- 41_stuffer.md R125: with the default sentinels, every sequence STUFF produces from an input holding 0x5E is one
UNSTUFF rejects with BAD_ESCAPE. The default XON and XOFF are the spec's own (notes/assumptions/2.md). -/
def Obligations.DefaultSoeDoesNotRoundTrip : Prop :=
  ∀ (x : List Byte) (s : State), DefaultSentinels s.cfg → 0x5E ∈ x →
    exec (.unstuff (stuff s.cfg x)) s = .next { s with results := s.results ++ [⟨.badEscape, .none⟩] }

/-! ## Frame Codec -/

/-- 42_frame_codec.md R142, R145: ENCODE's result in both cases, with the destination expanded where it is the canonical
byte of an alias, and nothing else. -/
def Obligations.EncodeResult : Prop :=
  ∀ (dest src cmd : Byte) (payload : List Byte) (s : State), commandWord (.encode dest src cmd payload) = 0x07 ∧
    (s.cfg.maxPayload < payload.length →
      exec (.encode dest src cmd payload) s = .next { s with results := s.results ++ [⟨.tooLong, .none⟩] }) ∧
    (cfgValid s.cfg = true → payload.length ≤ s.cfg.maxPayload →
      ∀ address : List Byte,
        ((∃ a ∈ s.cfg.aliases, a.canonical = dest ∧ address = [a.first, a.second]) ∨
          ((∀ a ∈ s.cfg.aliases, a.canonical ≠ dest) ∧ address = [dest])) →
        let region := address ++ [src, cmd] ++ payload
        let c := crcFold 0x0000 region
        exec (.encode dest src cmd payload) s =
          .next { s with
            results := s.results ++
              [⟨.ok, .seq ([s.cfg.sot] ++ stuff s.cfg (region ++ [hiByte c, loByte c]) ++ [s.cfg.eot])⟩] })

/-- 42_frame_codec.md R146 with the bounds of 30_encoding.md R76: ENCODE's output starts with SOT, ends with EOT, holds
neither between them, and has `n + 7` to `2*(n + 5) + 2` bytes, one to two more for a 2-byte address. -/
def Obligations.WireFrameShapeAndLength : Prop :=
  ∀ (dest src cmd : Byte) (payload : List Byte) (s : State), cfgValid s.cfg = true →
    (wfEsc s.cfg = true ∨ DefaultSentinels s.cfg) → payload.length ≤ s.cfg.maxPayload →
    ∃ (t : State) (interior : List Byte), exec (.encode dest src cmd payload) s = .next t ∧
      t.results = s.results ++ [⟨.ok, .seq (s.cfg.sot :: interior ++ [s.cfg.eot])⟩] ∧
      (∀ b ∈ interior, b ≠ s.cfg.sot ∧ b ≠ s.cfg.eot) ∧
      let k := (aliasExpand s.cfg dest).length
      (k = 1 ∨ k = 2) ∧
      payload.length + k + 4 ≤ interior.length ∧ interior.length ≤ 2 * (payload.length + k + 4)

/-- 42_frame_codec.md R143: greedy folding of one address field. -/
def Obligations.AliasFoldIsGreedy : Prop :=
  ∀ (cfg : Cfg) (u : List Byte) (p : Nat), cfgValid cfg = true →
    (∀ a ∈ cfg.aliases, u[p]? = some a.first → u[p + 1]? = some a.second →
      aliasFold cfg u p = (a.canonical, p + 2)) ∧
    (∀ b : Byte, u[p]? = some b →
      (∀ a ∈ cfg.aliases, ¬ (u[p]? = some a.first ∧ u[p + 1]? = some a.second)) →
      aliasFold cfg u p = (b, p + 1))

/-- 42_frame_codec.md R147, R148: DECODE's checks in their order, each error under exactly the condition that the checks
before it passed and it fails, and the decoded Frame where all pass. -/
def Obligations.DecodeChecksInOrder : Prop :=
  ∀ (w : List Byte) (s : State), commandWord (.decode w) = 0x08 ∧
    let raises := fun rc : ResultCode =>
      exec (.decode w) s = .next { s with results := s.results ++ [⟨rc, .none⟩] }
    (w.head? ≠ some s.cfg.sot → raises .missingSot) ∧
    (w.head? = some s.cfg.sot → (w.length < 2 ∨ w.getLast? ≠ some s.cfg.eot) → raises .missingEot) ∧
    ∀ interior : List Byte, w = s.cfg.sot :: interior ++ [s.cfg.eot] →
      ((s.cfg.sot ∈ interior ∨ s.cfg.eot ∈ interior) → raises .misplacedDelimiter) ∧
      (s.cfg.sot ∉ interior → s.cfg.eot ∉ interior →
        (∀ rc, unstuff s.cfg interior = .error rc → raises rc) ∧
        ∀ u : List Byte, unstuff s.cfg interior = .ok u →
          (u.length < 5 → raises .short) ∧
          (5 ≤ u.length → crcFold 0x0000 u ≠ 0x0000 → raises .checksum) ∧
          (5 ≤ u.length → crcFold 0x0000 u = 0x0000 →
            ∀ (dest src : Byte) (p q : Nat), aliasFold s.cfg u 0 = (dest, p) → aliasFold s.cfg u p = (src, q) →
              (u.length < q + 3 → raises .short) ∧
              (∀ (cmd msb lsb : Byte) (payload : List Byte), u.drop q = cmd :: payload ++ [msb, lsb] →
                (s.cfg.maxPayload < payload.length → raises .tooLong) ∧
                (payload.length ≤ s.cfg.maxPayload →
                  exec (.decode w) s = .next { s with
                    results := s.results ++ [⟨.ok, .frame ⟨dest, src, cmd, payload, joinBytes msb lsb⟩⟩] }))))

/-- 42_frame_codec.md R149 under `WF_ESC`: DECODE of what ENCODE returned is the Frame, with its checksum, for every
alias table and every frame in which no alias pair stands by chance where folding looks. With an empty table the two
premises on aliases say nothing. -/
def Obligations.DecodeOfEncodedFrameIsTheFrame : Prop :=
  ∀ (dest src cmd : Byte) (payload : List Byte) (s : State), cfgValid s.cfg = true → wfEsc s.cfg = true →
    payload.length ≤ s.cfg.maxPayload →
    (∀ a ∈ s.cfg.aliases, ¬ (a.first = src ∧ a.second = cmd)) →
    ((∀ a ∈ s.cfg.aliases, a.canonical ≠ dest) → ∀ a ∈ s.cfg.aliases, ¬ (a.first = dest ∧ a.second = src)) →
    ∃ (t : State) (wire : List Byte), exec (.encode dest src cmd payload) s = .next t ∧
      t.results = s.results ++ [⟨.ok, .seq wire⟩] ∧
      exec (.decode wire) t = .next { t with
        results := t.results ++ [⟨.ok, .frame ⟨dest, src, cmd, payload,
          crcFold 0x0000 (aliasExpand s.cfg dest ++ [src, cmd] ++ payload)⟩⟩] }

/-- 42_frame_codec.md R149 in the default configuration, empty alias table: the round trip holds exactly when the
checksummed region contains no 0x5E, and otherwise DECODE returns 0x15. The default XON and XOFF are the spec's own
(notes/assumptions/2.md). -/
def Obligations.DefaultRoundTripFailsExactlyOnSoe : Prop :=
  ∀ (dest src cmd : Byte) (payload : List Byte) (s : State), cfgValid s.cfg = true → DefaultSentinels s.cfg →
    s.cfg.aliases = [] → payload.length ≤ s.cfg.maxPayload →
    ∃ (t : State) (wire : List Byte), exec (.encode dest src cmd payload) s = .next t ∧
      t.results = s.results ++ [⟨.ok, .seq wire⟩] ∧
      let c := crcFold 0x0000 ([dest, src, cmd] ++ payload)
      (0x5E ∉ [dest, src, cmd] ++ payload ++ [hiByte c, loByte c] →
        exec (.decode wire) t = .next { t with
          results := t.results ++ [⟨.ok, .frame ⟨dest, src, cmd, payload, c⟩⟩] }) ∧
      (0x5E ∈ [dest, src, cmd] ++ payload ++ [hiByte c, loByte c] →
        exec (.decode wire) t = .next { t with results := t.results ++ [⟨.badEscape, .none⟩] })

/-- A Frame has one Wire Frame: whatever DECODE accepts with an empty alias table, ENCODE of the decoded fields gives it
back byte for byte, and the checksum is the recomputed one (41_stuffer.md R124, 40_checksum.md R103, 42_frame_codec.md
R145, R147). -/
def Obligations.EncodeOfDecodedFrameIsTheWire : Prop :=
  ∀ (w : List Byte) (f : Frame) (s t : State), s.cfg.aliases = [] → exec (.decode w) s = .next t →
    t.results = s.results ++ [⟨.ok, .frame f⟩] →
    f.checksum = crcFold 0x0000 ([f.dest, f.src, f.cmd] ++ f.payload) ∧
    exec (.encode f.dest f.src f.cmd f.payload) t = .next { t with results := t.results ++ [⟨.ok, .seq w⟩] }

/-- 42_frame_codec.md R150: of a delimited, stuffed frame that is long enough, DECODE accepts the checksum exactly when
recomputing it over the protected region equals the transmitted one. -/
def Obligations.DecodeAcceptsExactlyTheChecksum : Prop :=
  ∀ (region : List Byte) (c : U16) (s : State), cfgValid s.cfg = true → wfEsc s.cfg = true → 3 ≤ region.length →
    ∃ (t : State) (r : Result),
      exec (.decode ([s.cfg.sot] ++ stuff s.cfg (region ++ [hiByte c, loByte c]) ++ [s.cfg.eot])) s = .next t ∧
      t.results = s.results ++ [r] ∧ (r.rc = .checksum ↔ c ≠ crcFold 0x0000 region)

/-- Frame of the Byte Stuffer and the Frame Codec, on success and on every error: STUFF, UNSTUFF, ENCODE and DECODE read
no run-time state and write none (42_frame_codec.md R151, 20_memory.md R47, 60_exceptions.md R202). -/
def Obligations.StufferAndCodecArePure : Prop :=
  ∀ (i : Instr), ((∃ x, i = .stuff x) ∨ (∃ y, i = .unstuff y) ∨ (∃ d a c p, i = .encode d a c p) ∨
      (∃ w, i = .decode w)) →
    ∀ cfg : Cfg, ∃ r : Result, ∀ s : State, s.cfg = cfg →
      exec i s = .next { s with results := s.results ++ [r] }

/-! ## Transport Reader -/

/-- 43_reader.md R171, case by case. -/
def Obligations.RxByteResult : Prop :=
  ∀ (b : Byte) (s : State), commandWord (.rxByte b) = 0x09 ∧
    (s.rxState = .hunt → b ≠ s.cfg.sot →
      exec (.rxByte b) s = .next { s with results := s.results ++ [⟨.ok, .cand none⟩] }) ∧
    (b = s.cfg.sot →
      exec (.rxByte b) s =
        .next { s with rxState := .inFrame, rxBuf := [b], results := s.results ++ [⟨.ok, .cand none⟩] }) ∧
    (s.rxState = .inFrame → b ≠ s.cfg.sot → b = s.cfg.eot →
      exec (.rxByte b) s =
        .next { s with
          rxState := .hunt, rxBuf := [], results := s.results ++ [⟨.ok, .cand (some (s.rxBuf ++ [b]))⟩] }) ∧
    (s.rxState = .inFrame → b ≠ s.cfg.sot → b ≠ s.cfg.eot → s.cfg.rxCap ≤ s.rxBuf.length + 1 →
      exec (.rxByte b) s =
        .next { s with rxState := .hunt, rxBuf := [], results := s.results ++ [⟨.overflow, .none⟩] }) ∧
    (s.rxState = .inFrame → b ≠ s.cfg.sot → b ≠ s.cfg.eot → s.rxBuf.length + 1 < s.cfg.rxCap →
      exec (.rxByte b) s =
        .next { s with rxBuf := s.rxBuf ++ [b], results := s.results ++ [⟨.ok, .cand none⟩] })

/-- Every candidate RX_BYTE or RX_PUSH returns starts with SOT, ends with EOT, holds neither between them, and has at
most RX_CAP bytes (43_reader.md R171, R173; 10_state.md R33). -/
def Obligations.CandidatesAreDelimitedAndBounded : Prop :=
  ∀ (i : Instr) (s t : State) (r : Result) (c : List Byte), StateInv s → exec i s = .next t →
    t.results = s.results ++ [r] →
    (r.value = .cand (some c) ∨ ∃ es, r.value = .events es ∧ .candidate c ∈ es) →
    c.length ≤ s.cfg.rxCap ∧
    ∃ interior : List Byte, c = s.cfg.sot :: interior ++ [s.cfg.eot] ∧
      ∀ b ∈ interior, b ≠ s.cfg.sot ∧ b ≠ s.cfg.eot

/-- 43_reader.md R173: RX_PUSH always returns 0x00, and its state writes and its events are those of the RX_BYTE
operations on its bytes, in order. -/
def Obligations.RxPushIsItsRxBytes : Prop :=
  ∀ (chunk : List Byte) (s : State), commandWord (.rxPush chunk) = 0x0A ∧
    ∃ (t u : State) (rs : List Result),
      execAll (chunk.map .rxByte) s = .next u ∧ u.results = s.results ++ rs ∧ rs.length = chunk.length ∧
      exec (.rxPush chunk) s = .next t ∧
      t = { u with results := s.results ++ [⟨.ok, .events (eventsOfResults rs)⟩] }

/-- 43_reader.md R174: a stream cut into chunks anywhere gives, pushed in order, the same concatenated events and the
same final state as the stream pushed at once, and as RX_BYTE on each of its bytes. -/
def Obligations.ChunkBoundariesDoNotMatter : Prop :=
  ∀ (chunks : List (List Byte)) (s : State),
    ∃ (t u v : State) (rs qs : List Result) (es : List Event),
      exec (.rxPush chunks.flatten) s = .next u ∧ u.results = s.results ++ [⟨.ok, .events es⟩] ∧
      execAll (chunks.map .rxPush) s = .next t ∧ eventsOfPushes rs = es ∧ t = { u with results := s.results ++ rs } ∧
      execAll (chunks.flatten.map .rxByte) s = .next v ∧ qs.length = chunks.flatten.length ∧
      eventsOfResults qs = es ∧ v = { u with results := s.results ++ qs }

/-- 43_reader.md R172, in every reader state: on every stream on which the `RX_CAP` bound drops nothing, the events are
exactly the candidates of the source's own growing-buffer algorithm (R170), in order, the source's buffer holding what
the reader's does and, before it, any `noise` left since the last eviction; and the bound can drop something only where
the buffer and the stream together reach `RX_CAP` bytes. The source's algorithm is `sourceReader`, which is the model's
reading of R170: that an eviction takes the bytes before the most recent SOT too is DEDUCED (notes/assumptions/14.md). -/
def Obligations.CandidatesAreTheSourceAlgorithms : Prop :=
  ∀ (stream noise : List Byte) (s : State), StateInv s → s.cfg.eot ∉ noise →
    (s.rxState = .hunt → s.cfg.sot ∉ noise) →
    ∃ (t : State) (es : List Event), exec (.rxPush stream) s = .next t ∧
      t.results = s.results ++ [⟨.ok, .events es⟩] ∧
      ((∀ rc : ResultCode, .error rc ∉ es) → es = (sourceReader s.cfg (noise ++ s.rxBuf) stream).map .candidate) ∧
      (s.rxBuf.length + stream.length < s.cfg.rxCap → ∀ rc : ResultCode, .error rc ∉ es)

/-- 43_reader.md R175: in every reader state. -/
def Obligations.RxTimeoutResult : Prop :=
  commandWord .rxTimeout = 0x0B ∧ resultByte .timeout = 0x40 ∧
  ∀ s : State, exec .rxTimeout s =
    .next { s with rxState := .hunt, rxBuf := [], results := s.results ++ [⟨.timeout, .none⟩] }

/-- 43_reader.md R176: in every reader state. -/
def Obligations.RxFlushResult : Prop :=
  commandWord .rxFlush = 0x0C ∧ resultByte .ok = 0x00 ∧
  ∀ s : State, exec .rxFlush s =
    .next { s with rxState := .hunt, rxBuf := [], results := s.results ++ [⟨.ok, .none⟩] }

/-- 43_reader.md R178: after RX_TIMEOUT or RX_FLUSH, the rest of the partial frame (any bytes before a new SOT) gives no
event and leaves the reader hunting. -/
def Obligations.LateTailIsDiscarded : Prop :=
  ∀ (i : Instr) (tail : List Byte) (s : State), (i = .rxTimeout ∨ i = .rxFlush) → s.cfg.sot ∉ tail →
    ∃ t : State, execAll [i, .rxPush tail] s = .next t ∧ t.rxState = .hunt ∧ t.rxBuf = [] ∧
      t.results.getLast? = some ⟨.ok, .events []⟩

/-- Frame of the Transport Reader: RX_BYTE, RX_PUSH, RX_TIMEOUT and RX_FLUSH leave the configuration and `S.crc` alone
(10_state.md R29, R30; 43_reader.md R176). -/
def Obligations.ReaderOperationsFrame : Prop :=
  ∀ (i : Instr) (s t : State),
    ((∃ b, i = .rxByte b) ∨ (∃ x, i = .rxPush x) ∨ i = .rxTimeout ∨ i = .rxFlush) → exec i s = .next t →
      t.cfg = s.cfg ∧ t.crc = s.crc ∧ t.pending = s.pending ∧ t.stream = s.stream

/-- 20_memory.md R47: CRC_INIT, RX_TIMEOUT, RX_FLUSH, CHECKSUM and VERIFY done twice leave the state of doing them
once, and return the same result again. -/
def Obligations.IdempotentOperations : Prop :=
  ∀ (i : Instr) (s : State),
    (i = .crcInit ∨ i = .rxTimeout ∨ i = .rxFlush ∨ (∃ x, i = .checksum x) ∨ (∃ x, i = .verify x)) →
    ∃ (t : State) (r : Result), exec i s = .next t ∧ t.results = s.results ++ [r] ∧
      exec i t = .next { t with results := t.results ++ [r] }

/-- End to end: under `WF_ESC` or with the default sentinels, what ENCODE returns, pushed into a reader in any state, is
exactly one candidate, itself, whatever the alias table; RX_CAP never drops a legal frame (D17), and RECV decodes exactly
it (30_encoding.md R72). The default XON and XOFF are the spec's own (notes/assumptions/2.md). -/
def Obligations.EncodedFrameSurvivesTheReader : Prop :=
  ∀ (dest src cmd : Byte) (payload : List Byte) (s : State), cfgValid s.cfg = true →
    (wfEsc s.cfg = true ∨ DefaultSentinels s.cfg) → payload.length ≤ s.cfg.maxPayload →
    ∃ (t : State) (wire : List Byte), exec (.encode dest src cmd payload) s = .next t ∧
      t.results = s.results ++ [⟨.ok, .seq wire⟩] ∧
      recv wire t = [.rxPush wire, .decode wire] ∧
      exec (.rxPush wire) t = .next { t with
        rxState := .hunt, rxBuf := [], results := t.results ++ [⟨.ok, .events [.candidate wire]⟩] }
end

