-- ==== Sys2Proof/Laws/Decode.lean ====
section
/-! SUPPORT. Spec lemmas of the 16-bit and sequence helpers of the serialized form (30_encoding.md R63). -/

namespace Sys2Proof

@[simp] theorem joinBytes_hiByte_loByte (c : U16) : joinBytes (hiByte c) (loByte c) = c := by
  apply BitVec.eq_of_getElem_eq
  intro i hi
  interval_cases i <;> simp [joinBytes, hiByte, loByte]

@[simp] theorem hiByte_joinBytes (msb lsb : Byte) : hiByte (joinBytes msb lsb) = msb := by
  apply BitVec.eq_of_getElem_eq
  intro i hi
  interval_cases i <;> simp [joinBytes, hiByte]

@[simp] theorem loByte_joinBytes (msb lsb : Byte) : loByte (joinBytes msb lsb) = lsb := by
  apply BitVec.eq_of_getElem_eq
  intro i hi
  interval_cases i <;> simp [joinBytes, loByte]

theorem u16Bytes_joinBytes (msb lsb : Byte) : u16Bytes (joinBytes msb lsb) = [msb, lsb] := by
  simp [u16Bytes]

theorem toNat_ofNat_of_serializable {n : Nat} (h : n ≤ 0xFFFF) : (BitVec.ofNat 16 n).toNat = n := by
  simp only [BitVec.toNat_ofNat]
  omega

/-- `takeSeq` reads back what `lenSeq` wrote, whatever follows. -/
theorem takeSeq_lenSeq {s : List Byte} (h : serializableSeq s = true) (rest : List Byte) :
    takeSeq (lenSeq s ++ rest) = some (s, rest) := by
  have h' : s.length ≤ 0xFFFF := by simpa [serializableSeq] using h
  simp [lenSeq, len16, u16Bytes, takeSeq, Nat.mod_eq_of_lt (show s.length < 65536 by omega)]

/-- Whatever `takeSeq` reads is a length and that many bytes. -/
theorem eq_of_takeSeq {bs s rest : List Byte} (h : takeSeq bs = some (s, rest)) :
    bs = lenSeq s ++ rest ∧ serializableSeq s = true := by
  match bs with
  | [] => simp [takeSeq] at h
  | [_] => simp [takeSeq] at h
  | msb :: lsb :: tail =>
    simp only [takeSeq] at h
    split at h
    · rename_i hn
      simp only [Option.some.injEq, Prod.mk.injEq] at h
      obtain ⟨rfl, rfl⟩ := h
      have hlt : (joinBytes msb lsb).toNat < 2 ^ 16 := (joinBytes msb lsb).isLt
      have hlen : (tail.take (joinBytes msb lsb).toNat).length = (joinBytes msb lsb).toNat := by
        simp [hn]
      refine ⟨?_, by simp only [serializableSeq, hlen, decide_eq_true_eq]; omega⟩
      simp only [lenSeq, len16, hlen, BitVec.ofNat_toNat, BitVec.setWidth_eq, u16Bytes_joinBytes]
      simp
    · simp at h

/-- What each command word selects (30_encoding.md R66). -/
theorem selected_commandWord (i : Instr) :
    selected (commandWord i) = match i with
      | .crcInit => .none .crcInit
      | .crcByte _ => .byte .crcByte
      | .checksum _ => .seq .checksum
      | .verify _ => .seq .verify
      | .stuff _ => .seq .stuff
      | .unstuff _ => .seq .unstuff
      | .encode _ _ _ _ => .frame .encode
      | .decode _ => .seq .decode
      | .rxByte _ => .byte .rxByte
      | .rxPush _ => .seq .rxPush
      | .rxTimeout => .none .rxTimeout
      | .rxFlush => .none .rxFlush := by
  cases i <;> simp [selected, opsel, rsv, commandWord]

/-- The twelve command words and what they select, or illegal (30_encoding.md R66, R67): the one inversion of
`selected`. -/
theorem selected_cases (cw : Byte) :
    (cw = 0x01 ∧ selected cw = .none .crcInit) ∨ (cw = 0x02 ∧ selected cw = .byte .crcByte) ∨
    (cw = 0x03 ∧ selected cw = .seq .checksum) ∨ (cw = 0x04 ∧ selected cw = .seq .verify) ∨
    (cw = 0x05 ∧ selected cw = .seq .stuff) ∨ (cw = 0x06 ∧ selected cw = .seq .unstuff) ∨
    (cw = 0x07 ∧ selected cw = .frame .encode) ∨ (cw = 0x08 ∧ selected cw = .seq .decode) ∨
    (cw = 0x09 ∧ selected cw = .byte .rxByte) ∨ (cw = 0x0A ∧ selected cw = .seq .rxPush) ∨
    (cw = 0x0B ∧ selected cw = .none .rxTimeout) ∨ (cw = 0x0C ∧ selected cw = .none .rxFlush) ∨
    (¬ (0x01 ≤ cw ∧ cw ≤ 0x0C) ∧ selected cw = .illegal) := by
  have hr : (rsv cw).toNat = cw.toNat / 16 := by
    have := cw.isLt
    simp [rsv, BitVec.extractLsb'_toNat, Nat.shiftRight_eq_div_pow]; omega
  have ho : (opsel cw).toNat = cw.toNat % 16 := by simp [opsel, BitVec.extractLsb'_toNat]
  have eqv (n : Nat) (hn : n < 256) : cw = BitVec.ofNat 8 n ↔ cw.toNat = n := by
    rw [← BitVec.toNat_inj]; simp [Nat.mod_eq_of_lt hn]
  unfold selected
  have h0 : rsv cw = 0 ↔ cw.toNat / 16 = 0 := by rw [← hr, ← BitVec.toNat_inj]; rfl
  simp only [h0, ho]
  by_cases hz : cw.toNat / 16 = 0
  · rw [if_pos hz]
    have hlt : cw.toNat < 16 := by omega
    have hm : cw.toNat % 16 = cw.toNat := by omega
    rw [hm]
    have hc : cw = BitVec.ofNat 8 cw.toNat := by simp
    generalize hn : cw.toNat = n at *
    subst hc
    interval_cases n <;> simp
  · rw [if_neg hz]
    simp only [reduceCtorEq, and_false, false_or, and_true, BitVec.le_def]
    simp
    omega

end Sys2Proof
end

