-- ==== Sys2Proof/Laws/Checksum.lean ====
section
/-! SUPPORT. The recurrence of 40_checksum.md R100: each mixing line is invertible, the fold over a sequence (R101), and
the closed form of four shifts of the polynomial form (R102). -/

namespace Sys2Proof.Machine

open Sys2Proof

@[simp] theorem crcFold_nil (s : U16) : crcFold s [] = s := rfl

@[simp] theorem crcFold_cons (s : U16) (b : Byte) (x : List Byte) :
    crcFold s (b :: x) = crcFold (crcStep s b) x := rfl

/-- `crc_fold(s, x ++ y) = crc_fold(crc_fold(s, x), y)` (40_checksum.md R101). -/
theorem crcFold_append (s : U16) (x y : List Byte) : crcFold s (x ++ y) = crcFold (crcFold s x) y := by
  simp [crcFold]

/-! ## Inverses of the lines -/

@[simp] theorem crcSwap_crcSwap (s : U16) : crcSwap (crcSwap s) = s := by
  apply BitVec.eq_of_getElem_eq
  intro i hi
  interval_cases i <;> simp [crcSwap]

@[simp] theorem crcMix4_crcMix4 (t : U16) : crcMix4 (crcMix4 t) = t := by
  apply BitVec.eq_of_getElem_eq
  intro i hi
  interval_cases i <;> simp [crcMix4]

@[simp] theorem crcMix12_crcMix12 (t : U16) : crcMix12 (crcMix12 t) = t := by
  apply BitVec.eq_of_getElem_eq
  intro i hi
  interval_cases i <;> simp [crcMix12]

/-- The inverse of the last line: bits 7..5 of its input are recovered from its output first. -/
def crcUnmix5 (u : U16) : U16 := u ^^^ ((u &&& 0x00FF) <<< 5) ^^^ ((u &&& 0x0007) <<< 10)

@[simp] theorem crcUnmix5_crcMix5 (t : U16) : crcUnmix5 (crcMix5 t) = t := by
  apply BitVec.eq_of_getElem_eq
  intro i hi
  interval_cases i <;> simp [crcMix5, crcUnmix5]

@[simp] theorem crcMix5_crcUnmix5 (u : U16) : crcMix5 (crcUnmix5 u) = u := by
  apply BitVec.eq_of_getElem_eq
  intro i hi
  interval_cases i <;> simp [crcMix5, crcUnmix5]

/-- The state before one step of the recurrence with byte `b`, from the state after it. -/
def crcUnstep (u : U16) (b : Byte) : U16 := crcSwap (crcMix4 (crcMix12 (crcUnmix5 u)) ^^^ b.setWidth 16)

theorem crcUnstep_crcStep (s : U16) (b : Byte) : crcUnstep (crcStep s b) b = s := by
  simp [crcUnstep, crcStep]

theorem crcStep_crcUnstep (u : U16) (b : Byte) : crcStep (crcUnstep u b) b = u := by
  simp [crcUnstep, crcStep]

/-- For a fixed byte the recurrence loses nothing of the state (40_checksum.md R105). -/
theorem crcStep_left_cancel {s t : U16} {b : Byte} (h : crcStep s b = crcStep t b) : s = t := by
  rw [← crcUnstep_crcStep s b, h, crcUnstep_crcStep]

/-- For a fixed state the recurrence loses nothing of the byte (40_checksum.md R105). -/
theorem crcStep_right_cancel {s : U16} {a b : Byte} (h : crcStep s a = crcStep s b) : a = b := by
  have h' := congrArg (fun u => crcMix4 (crcMix12 (crcUnmix5 u))) h
  simp only [crcStep, crcUnmix5_crcMix5, crcMix12_crcMix12, crcMix4_crcMix4] at h'
  have h'' := congrArg (fun u => (crcSwap s ^^^ u).setWidth 8) h'
  simpa [← BitVec.xor_assoc] using h''

theorem crcFold_left_cancel {s t : U16} {x : List Byte} (h : crcFold s x = crcFold t x) : s = t := by
  induction x generalizing s t with
  | nil => exact h
  | cons b x ih => exact crcStep_left_cancel (ih h)

/-- Two bytes that leave the residue 0 are determined by the state before them: its own bytes, MSB first. -/
theorem crcFold_own_bytes (s : U16) : crcFold s [hiByte s, loByte s] = 0x0000 := by
  apply BitVec.eq_of_getElem_eq
  intro i hi
  simp only [crcFold_cons, crcFold_nil]
  interval_cases i <;> simp [crcStep, crcSwap, crcMix4, crcMix12, crcMix5, hiByte, loByte]

/-! ## The polynomial form -/

theorem polyShift_eq (s : U16) :
    polyShift s = (s <<< 1) ^^^ (s >>> 15) ^^^ ((s >>> 15) <<< 5) ^^^ ((s >>> 15) <<< 12) := by
  apply BitVec.eq_of_getElem_eq
  intro i hi
  unfold polyShift
  split <;> rename_i h <;> simp at h <;> interval_cases i <;> simp [h]

/-- Within four shifts no fed-back bit reaches bit 15. -/
theorem polyShift_iterate_four (s : U16) :
    polyShift^[4] s = (s <<< 4) ^^^ (s >>> 12) ^^^ ((s >>> 12) <<< 5) ^^^ ((s >>> 12) <<< 12) := by
  simp only [Function.iterate_succ, Function.iterate_zero, Function.comp, id, polyShift_eq]
  apply BitVec.eq_of_getElem_eq
  intro i hi
  interval_cases i <;> simp

theorem polyStep_eq_four_four (s : U16) (b : Byte) :
    polyStep s b = polyShift^[4] (polyShift^[4] (s ^^^ (b.setWidth 16 <<< 8))) := rfl

/-! ## VERIFY -/

theorem verifies_iff (x : List Byte) : verifies x = true ↔ 2 ≤ x.length ∧ crcFold 0x0000 x = 0x0000 := by
  simp [verifies]

end Sys2Proof.Machine
end

