-- ==== Sys2Proof/Laws/State.lean ====
section
/-! SUPPORT. One lemma per field per update of the state, true by definition, so that no later proof unfolds a record
update. -/

namespace Sys2Proof.Machine

open Sys2Proof

@[simp] theorem State.setCrc_cfg (s : State) (c : U16) : (s.setCrc c).cfg = s.cfg := rfl
@[simp] theorem State.setCrc_crc (s : State) (c : U16) : (s.setCrc c).crc = c := rfl
@[simp] theorem State.setCrc_rxState (s : State) (c : U16) : (s.setCrc c).rxState = s.rxState := rfl
@[simp] theorem State.setCrc_rxBuf (s : State) (c : U16) : (s.setCrc c).rxBuf = s.rxBuf := rfl
@[simp] theorem State.setCrc_pending (s : State) (c : U16) : (s.setCrc c).pending = s.pending := rfl
@[simp] theorem State.setCrc_stream (s : State) (c : U16) : (s.setCrc c).stream = s.stream := rfl
@[simp] theorem State.setCrc_results (s : State) (c : U16) : (s.setCrc c).results = s.results := rfl

@[simp] theorem State.setReader_cfg (s : State) (st : RxState) (buf : List Byte) : (s.setReader st buf).cfg = s.cfg := rfl
@[simp] theorem State.setReader_crc (s : State) (st : RxState) (buf : List Byte) : (s.setReader st buf).crc = s.crc := rfl
@[simp] theorem State.setReader_rxState (s : State) (st : RxState) (buf : List Byte) : (s.setReader st buf).rxState = st := rfl
@[simp] theorem State.setReader_rxBuf (s : State) (st : RxState) (buf : List Byte) : (s.setReader st buf).rxBuf = buf := rfl
@[simp] theorem State.setReader_pending (s : State) (st : RxState) (buf : List Byte) : (s.setReader st buf).pending = s.pending := rfl
@[simp] theorem State.setReader_stream (s : State) (st : RxState) (buf : List Byte) : (s.setReader st buf).stream = s.stream := rfl
@[simp] theorem State.setReader_results (s : State) (st : RxState) (buf : List Byte) : (s.setReader st buf).results = s.results := rfl

@[simp] theorem State.clearReader_cfg (s : State) : (s.clearReader).cfg = s.cfg := rfl
@[simp] theorem State.clearReader_crc (s : State) : (s.clearReader).crc = s.crc := rfl
@[simp] theorem State.clearReader_rxState (s : State) : (s.clearReader).rxState = .hunt := rfl
@[simp] theorem State.clearReader_rxBuf (s : State) : (s.clearReader).rxBuf = [] := rfl
@[simp] theorem State.clearReader_pending (s : State) : (s.clearReader).pending = s.pending := rfl
@[simp] theorem State.clearReader_stream (s : State) : (s.clearReader).stream = s.stream := rfl
@[simp] theorem State.clearReader_results (s : State) : (s.clearReader).results = s.results := rfl

@[simp] theorem State.setPending_cfg (s : State) (p : List HostAction) : (s.setPending p).cfg = s.cfg := rfl
@[simp] theorem State.setPending_crc (s : State) (p : List HostAction) : (s.setPending p).crc = s.crc := rfl
@[simp] theorem State.setPending_rxState (s : State) (p : List HostAction) : (s.setPending p).rxState = s.rxState := rfl
@[simp] theorem State.setPending_rxBuf (s : State) (p : List HostAction) : (s.setPending p).rxBuf = s.rxBuf := rfl
@[simp] theorem State.setPending_pending (s : State) (p : List HostAction) : (s.setPending p).pending = p := rfl
@[simp] theorem State.setPending_stream (s : State) (p : List HostAction) : (s.setPending p).stream = s.stream := rfl
@[simp] theorem State.setPending_results (s : State) (p : List HostAction) : (s.setPending p).results = s.results := rfl

@[simp] theorem State.setStream_cfg (s : State) (bs : List Byte) : (s.setStream bs).cfg = s.cfg := rfl
@[simp] theorem State.setStream_crc (s : State) (bs : List Byte) : (s.setStream bs).crc = s.crc := rfl
@[simp] theorem State.setStream_rxState (s : State) (bs : List Byte) : (s.setStream bs).rxState = s.rxState := rfl
@[simp] theorem State.setStream_rxBuf (s : State) (bs : List Byte) : (s.setStream bs).rxBuf = s.rxBuf := rfl
@[simp] theorem State.setStream_pending (s : State) (bs : List Byte) : (s.setStream bs).pending = s.pending := rfl
@[simp] theorem State.setStream_stream (s : State) (bs : List Byte) : (s.setStream bs).stream = bs := rfl
@[simp] theorem State.setStream_results (s : State) (bs : List Byte) : (s.setStream bs).results = s.results := rfl

@[simp] theorem State.answer_cfg (s : State) (r : Result) : (s.answer r).cfg = s.cfg := rfl
@[simp] theorem State.answer_crc (s : State) (r : Result) : (s.answer r).crc = s.crc := rfl
@[simp] theorem State.answer_rxState (s : State) (r : Result) : (s.answer r).rxState = s.rxState := rfl
@[simp] theorem State.answer_rxBuf (s : State) (r : Result) : (s.answer r).rxBuf = s.rxBuf := rfl
@[simp] theorem State.answer_pending (s : State) (r : Result) : (s.answer r).pending = s.pending := rfl
@[simp] theorem State.answer_stream (s : State) (r : Result) : (s.answer r).stream = s.stream := rfl
@[simp] theorem State.answer_results (s : State) (r : Result) : (s.answer r).results = s.results ++ [r] := rfl

@[simp] theorem State.resetWith_cfg (cfg : Cfg) : (State.resetWith cfg).cfg = cfg := rfl
@[simp] theorem State.resetWith_crc (cfg : Cfg) : (State.resetWith cfg).crc = 0x0000 := rfl
@[simp] theorem State.resetWith_rxState (cfg : Cfg) : (State.resetWith cfg).rxState = .hunt := rfl
@[simp] theorem State.resetWith_rxBuf (cfg : Cfg) : (State.resetWith cfg).rxBuf = [] := rfl
@[simp] theorem State.resetWith_pending (cfg : Cfg) : (State.resetWith cfg).pending = [] := rfl
@[simp] theorem State.resetWith_stream (cfg : Cfg) : (State.resetWith cfg).stream = [] := rfl
@[simp] theorem State.resetWith_results (cfg : Cfg) : (State.resetWith cfg).results = [] := rfl

end Sys2Proof.Machine
end

