-- ==== Sys2Proof/Laws/Ops.lean ====
section
/-! SUPPORT. The shared operations: what each can do, said once. -/

namespace Sys2Proof.Machine

open Sys2Proof

@[simp] theorem returnOk_eq (v : Value) (s : State) : returnOk v s = .next (s.answer ⟨.ok, v⟩) := rfl

@[simp] theorem raise_eq (rc : ResultCode) (s : State) : raise rc s = .next (s.answer ⟨rc, .none⟩) := rfl

@[simp] theorem returnOrRaise_ok (v : Value) (s : State) :
    returnOrRaise (.ok v) s = .next (s.answer ⟨.ok, v⟩) := rfl

@[simp] theorem returnOrRaise_error (rc : ResultCode) (s : State) :
    returnOrRaise (.error rc) s = .next (s.answer ⟨rc, .none⟩) := rfl

/-- The result an operation that computes a value or an error returns. -/
def resultOf (r : Except ResultCode Value) : Result :=
  match r with
  | .ok v => ⟨.ok, v⟩
  | .error rc => ⟨rc, .none⟩

/-- Whatever it computes, such an operation goes on, in the same state but for the one result. -/
theorem returnOrRaise_next (r : Except ResultCode Value) (s : State) :
    returnOrRaise r s = .next (s.answer (resultOf r)) := by
  cases r <;> rfl

/-- Reset either gives the reset state with the host's end untouched, or is refused for its configuration. -/
theorem hostReset_cases (cfg : Cfg) (s : State) :
    (cfgValid cfg = true ∧ hostReset cfg s = .next { State.resetWith cfg with
        pending := s.pending, stream := s.stream, results := s.results }) ∨
    (cfgValid cfg = false ∧ hostReset cfg s = .refused .invalidConfiguration) := by
  unfold hostReset
  cases h : cfgValid cfg <;> simp

/-- What `CFG_VALID` says, one part each (00_scope.md R9). -/
theorem cfgValid_iff (cfg : Cfg) :
    cfgValid cfg = true ↔ (reservedSet cfg).Nodup ∧ (cfg.aliases.map AliasEntry.canonical).Nodup ∧
      (cfg.aliases.map aliasPair).Nodup ∧ defaultRxCap cfg.maxPayload ≤ cfg.rxCap := by
  simp [cfgValid, and_assoc]

theorem reserved_iff (cfg : Cfg) (b : Byte) :
    reserved cfg b = true ↔ b ∈ [cfg.sot, cfg.eot, cfg.xon, cfg.xoff, cfg.soe] := by
  simp [reserved, reservedSet]

theorem delimiter_iff (cfg : Cfg) (b : Byte) : delimiter cfg b = true ↔ b = cfg.sot ∨ b = cfg.eot := by
  simp [delimiter]

theorem wfEsc_iff (cfg : Cfg) : wfEsc cfg = true ↔ ∀ r, reserved cfg r = true → r < 0x40 := by
  simp [wfEsc, reserved]

/-- The sentinels of a valid configuration are distinct where the rules compare them. -/
theorem sentinels_ne {cfg : Cfg} (h : cfgValid cfg = true) :
    cfg.sot ≠ cfg.eot ∧ cfg.soe ≠ cfg.sot ∧ cfg.soe ≠ cfg.eot ∧ cfg.soe ≠ cfg.xon ∧ cfg.soe ≠ cfg.xoff := by
  have := ((cfgValid_iff cfg).1 h).1
  simp only [reservedSet, List.nodup_cons, List.mem_cons, List.not_mem_nil, or_false, not_or] at this
  exact ⟨this.1.1, fun e => this.1.2.2.2 e.symm, fun e => this.2.1.2.2 e.symm, fun e => this.2.2.1.2 e.symm,
    fun e => this.2.2.2.1 e.symm⟩

end Sys2Proof.Machine
end

