-- ==== Sys2Proof/Laws/Stuffer.lean ====
section
/-! SUPPORT. STUFF and UNSTUFF on sequences (41_stuffer.md): one equation per turn of each loop, and how both act on a
concatenation. -/

namespace Sys2Proof.Machine

open Sys2Proof

@[simp] theorem stuff_nil (cfg : Cfg) : stuff cfg [] = [] := rfl

theorem stuff_cons (cfg : Cfg) (b : Byte) (x : List Byte) :
    stuff cfg (b :: x) = (if reserved cfg b then [cfg.soe, escapeByte b] else [b]) ++ stuff cfg x := by
  rw [stuff]
  split <;> simp

theorem stuff_append (cfg : Cfg) (x y : List Byte) : stuff cfg (x ++ y) = stuff cfg x ++ stuff cfg y := by
  induction x with
  | nil => rfl
  | cons b x ih => simp [stuff_cons, ih]

theorem stuff_length (cfg : Cfg) (x : List Byte) :
    (stuff cfg x).length = x.length + x.countP (reserved cfg) := by
  induction x with
  | nil => rfl
  | cons b x ih =>
    rw [stuff_cons, List.length_append, ih, List.countP_cons]
    split <;> simp_all <;> omega

@[simp] theorem unstuff_nil (cfg : Cfg) : unstuff cfg [] = .ok [] := by
  unfold unstuff
  rfl

@[simp] theorem unstuff_soe (cfg : Cfg) : unstuff cfg [cfg.soe] = .error .trailingSoe := by
  unfold unstuff
  simp

theorem unstuff_soe_cons (cfg : Cfg) (e : Byte) (y : List Byte) :
    unstuff cfg (cfg.soe :: e :: y) =
      if canonicalEscape cfg e then (unstuff cfg y).map (unescapeByte e :: ·) else .error .badEscape := by
  rw [unstuff.eq_def]
  simp

theorem unstuff_cons (cfg : Cfg) {b : Byte} (h : b ≠ cfg.soe) (y : List Byte) :
    unstuff cfg (b :: y) = if reserved cfg b then .error .literalReserved else (unstuff cfg y).map (b :: ·) := by
  rw [unstuff.eq_def]
  simp [h]

theorem canonicalEscape_iff (cfg : Cfg) (e : Byte) :
    canonicalEscape cfg e = true ↔ reserved cfg (e &&& 0x3F) = true ∧ e = (e &&& 0x3F) ||| 0x40 := by
  simp [canonicalEscape, escapeByte, unescapeByte]

/-- A successful UNSTUFF takes its operand apart as a run of the loop: nothing, an escape sequence, or one ordinary
byte, and then a successful UNSTUFF of the rest. -/
theorem unstuff_ok_cases {cfg : Cfg} {y x : List Byte} (h : unstuff cfg y = .ok x) :
    (y = [] ∧ x = []) ∨
    (∃ e y' x', y = cfg.soe :: e :: y' ∧ canonicalEscape cfg e = true ∧ x = unescapeByte e :: x' ∧
      unstuff cfg y' = .ok x') ∨
    (∃ b y' x', y = b :: y' ∧ b ≠ cfg.soe ∧ reserved cfg b = false ∧ x = b :: x' ∧ unstuff cfg y' = .ok x') := by
  match y with
  | [] => left; simpa [eq_comm] using h
  | b :: y =>
    right
    by_cases hb : b = cfg.soe
    · subst hb
      left
      match y with
      | [] => simp at h
      | e :: y =>
        rw [unstuff_soe_cons] at h
        split at h
        · rename_i hc
          cases hu : unstuff cfg y with
          | error rc => simp [hu, Except.map] at h
          | ok x' =>
            simp only [hu, Except.map, Except.ok.injEq] at h
            exact ⟨e, y, x', rfl, hc, h.symm, hu⟩
        · simp at h
    · right
      rw [unstuff_cons cfg hb] at h
      split at h
      · simp at h
      · rename_i hr
        cases hu : unstuff cfg y with
        | error rc => simp [hu, Except.map] at h
        | ok x' =>
          simp only [hu, Except.map, Except.ok.injEq] at h
          exact ⟨b, y, x', rfl, hb, by simpa using hr, h.symm, hu⟩

/-- After a well-formed beginning, UNSTUFF of the whole is UNSTUFF of what follows, its output put after the
beginning's. -/
theorem unstuff_append {cfg : Cfg} {p x : List Byte} (h : unstuff cfg p = .ok x) (q : List Byte) :
    unstuff cfg (p ++ q) = (unstuff cfg q).map (x ++ ·) := by
  induction hn : p.length using Nat.strong_induction_on generalizing p x with
  | _ n ih =>
    rcases unstuff_ok_cases h with ⟨rfl, rfl⟩ | ⟨e, y', x', rfl, hc, rfl, hu⟩ | ⟨b, y', x', rfl, hb, hr, rfl, hu⟩
    · cases hq : unstuff cfg q <;> simp [hq, Except.map]
    · have := ih y'.length (by simp at hn; omega) hu rfl
      simp only [List.cons_append, unstuff_soe_cons, hc, if_true, this]
      cases unstuff cfg q <;> rfl
    · have := ih y'.length (by simp at hn; omega) hu rfl
      simp only [List.cons_append, unstuff_cons cfg hb, hr, Bool.false_eq_true, if_false, this]
      cases unstuff cfg q <;> rfl

/-- The errors UNSTUFF raises (41_stuffer.md R123). -/
theorem unstuff_error {cfg : Cfg} {y : List Byte} {rc : ResultCode} (h : unstuff cfg y = .error rc) :
    rc = .trailingSoe ∨ rc = .badEscape ∨ rc = .literalReserved := by
  induction hn : y.length using Nat.strong_induction_on generalizing y with
  | _ n ih =>
    match y with
    | [] => simp at h
    | b :: y =>
      by_cases hb : b = cfg.soe
      · subst hb
        match y with
        | [] => simp at h; simp [← h]
        | e :: y =>
          rw [unstuff_soe_cons] at h
          split at h
          · cases hu : unstuff cfg y with
            | error rc' =>
              simp only [hu, Except.map, Except.error.injEq] at h
              subst h
              exact ih y.length (by simp at hn; omega) hu rfl
            | ok x' => simp [hu, Except.map] at h
          · simp at h; simp [← h]
      · rw [unstuff_cons cfg hb] at h
        split at h
        · simp at h; simp [← h]
        · cases hu : unstuff cfg y with
          | error rc' =>
            simp only [hu, Except.map, Except.error.injEq] at h
            subst h
            exact ih y.length (by simp at hn; omega) hu rfl
          | ok x' => simp [hu, Except.map] at h

/-- Under 0x40, escape and unescape are inverse (00_scope.md R10). -/
theorem unescape_escape {r : Byte} (h : r < 0x40) : unescapeByte (escapeByte r) = r := by
  have h6 : r.getLsbD 6 = false := by
    revert h; revert r; decide
  have h7 : r.getLsbD 7 = false := by
    revert h; revert r; decide
  apply BitVec.eq_of_getElem_eq
  intro i hi
  interval_cases i <;> simp_all [unescapeByte, escapeByte]

theorem canonicalEscape_escapeByte {cfg : Cfg} {r : Byte} (hr : reserved cfg r = true) (h : r < 0x40) :
    canonicalEscape cfg (escapeByte r) = true := by
  simp [canonicalEscape, unescape_escape h, hr]

end Sys2Proof.Machine
end

