-- ==== Sys2Proof/Laws/Codec.lean ====
section
/-! SUPPORT. The pieces of ENCODE and DECODE (42_frame_codec.md): what each helper answers, said once. -/

namespace Sys2Proof.Machine

open Sys2Proof

/-- The index after an address field is one or two further (42_frame_codec.md R143). -/
theorem aliasFold_snd (cfg : Cfg) (u : List Byte) (p : Nat) :
    (aliasFold cfg u p).2 = p + 1 ∨ (aliasFold cfg u p).2 = p + 2 := by
  unfold aliasFold
  split
  · split <;> simp
  · simp

/-- Without aliases an address field is its byte. -/
theorem aliasFold_of_no_aliases {cfg : Cfg} (h : cfg.aliases = []) (u : List Byte) (p : Nat) :
    aliasFold cfg u p = (byteAt u p, p + 1) := by
  simp [aliasFold, h]

theorem aliasExpand_of_no_aliases {cfg : Cfg} (h : cfg.aliases = []) (d : Byte) : aliasExpand cfg d = [d] := by
  simp [aliasExpand, h]

theorem aliasExpand_length (cfg : Cfg) (d : Byte) :
    (aliasExpand cfg d).length = 1 ∨ (aliasExpand cfg d).length = 2 := by
  unfold aliasExpand
  split <;> simp

/-- The interior of a delimited sequence that holds no delimiter inside. -/
theorem interiorOf_delimited (cfg : Cfg) (interior : List Byte) :
    interiorOf cfg (cfg.sot :: interior ++ [cfg.eot]) =
      if interior.any (delimiter cfg) then .error .misplacedDelimiter else .ok interior := by
  have h0 : byteAt (cfg.sot :: interior ++ [cfg.eot]) 0 = cfg.sot := by simp [byteAt]
  have h1 : byteAt (cfg.sot :: interior ++ [cfg.eot]) ((cfg.sot :: interior ++ [cfg.eot]).length - 1) = cfg.eot := by
    simp [byteAt]
  have h2 : slice (cfg.sot :: interior ++ [cfg.eot]) 1 ((cfg.sot :: interior ++ [cfg.eot]).length - 1) = interior := by
    simp [slice]
  simp only [interiorOf, h0, h1, h2]
  simp

/-- Whatever interior DECODE takes, its operand is that interior between the delimiters. -/
theorem eq_of_interiorOf {cfg : Cfg} {w interior : List Byte} (h : interiorOf cfg w = .ok interior) :
    w = cfg.sot :: interior ++ [cfg.eot] ∧ interior.any (delimiter cfg) = false := by
  unfold interiorOf at h
  simp only at h
  split at h
  · simp at h
  · rename_i h1
    split at h
    · simp at h
    · rename_i h2
      split at h
      · simp at h
      · rename_i h3
        simp only [Except.ok.injEq] at h
        push Not at h1 h2
        match w with
        | [] => simp at h1
        | b :: w =>
          rcases List.eq_nil_or_concat w with rfl | ⟨m, e, rfl⟩
          · simp at h2
          · have hb : b = cfg.sot := by simpa [byteAt] using h1.2
            have he : e = cfg.eot := by simpa [byteAt] using h2.2
            have hm : m = interior := by simpa [slice] using h
            subst hb he hm
            exact ⟨by simp, by simpa [slice] using h3⟩

/-- The byte after a beginning, by its index. -/
theorem byteAt_append (a : List Byte) (b : Byte) (c : List Byte) : byteAt (a ++ b :: c) a.length = b := by
  simp [byteAt]

/-- The middle of three pieces, by its indices. -/
theorem slice_append (a b c : List Byte) : slice (a ++ b ++ c) a.length (a.length + b.length) = b := by
  simp [slice, List.take_append]

/-- A region followed by its checksum has residue 0 (40_checksum.md R103). -/
theorem crcFold_withChecksum (region : List Byte) : crcFold 0x0000 (withChecksum region) = 0x0000 := by
  rw [withChecksum, crcFold_append]
  exact crcFold_own_bytes _

/-- The fields of a region whose addresses folded to `dest`, `src`, the rest being command, payload and checksum. -/
theorem fieldsOf_eq {cfg : Cfg} {u : List Byte} {dest src cmd msb lsb : Byte} {payload : List Byte} {p q : Nat}
    (hd : aliasFold cfg u 0 = (dest, p)) (hs : aliasFold cfg u p = (src, q))
    (hu : u.drop q = cmd :: payload ++ [msb, lsb]) :
    fieldsOf cfg u =
      if cfg.maxPayload < payload.length then .error .tooLong
      else .ok ⟨dest, src, cmd, payload, joinBytes msb lsb⟩ := by
  have hlen : u.length = q + (payload.length + 3) := by
    have := congrArg List.length hu
    simp at this
    omega
  have hsplit : u = u.take q ++ (cmd :: payload ++ [msb, lsb]) := by rw [← hu, List.take_append_drop]
  have hq : (u.take q).length = q := by simp [hlen]
  generalize u.take q = v at hsplit hq
  subst hq
  have hcmd : byteAt u v.length = cmd := by
    rw [hsplit]
    simpa using byteAt_append v cmd (payload ++ [msb, lsb])
  have hmsb : byteAt u (u.length - 2) = msb := by
    have hi : u.length - 2 = (v ++ cmd :: payload).length := by rw [hlen]; simp; omega
    rw [hi, hsplit]
    simpa using byteAt_append (v ++ cmd :: payload) msb [lsb]
  have hlsb : byteAt u (u.length - 1) = lsb := by
    have hi : u.length - 1 = (v ++ cmd :: payload ++ [msb]).length := by rw [hlen]; simp
    rw [hi, hsplit]
    simpa using byteAt_append (v ++ cmd :: payload ++ [msb]) lsb []
  have hpay : slice u (v.length + 1) (u.length - 2) = payload := by
    have h := slice_append (v ++ [cmd]) payload [msb, lsb]
    have hi : u.length - 2 = (v ++ [cmd]).length + payload.length := by rw [hlen]; simp; omega
    rw [hi, hsplit]
    simpa using h
  simp only [fieldsOf, hd, hs, hcmd, hmsb, hlsb, hpay]
  rw [if_neg (by omega)]

end Sys2Proof.Machine
end

