-- ==== Sys2Proof/Laws/Reader.lean ====
section
/-! SUPPORT. The Transport Reader (43_reader.md): what RX_BYTE can do, said once, and how a chunk runs. -/

namespace Sys2Proof.Machine

open Sys2Proof

/-- The cases of RX_BYTE (43_reader.md R171): noise, a (new) SOT, a candidate completed, an overflow, a byte kept. -/
theorem rxByte_cases (b : Byte) (s : State) :
    (s.rxState = .hunt ∧ b ≠ s.cfg.sot ∧ rxByte b s = (s, .ok none)) ∨
    (b = s.cfg.sot ∧ rxByte b s = (s.setReader .inFrame [b], .ok none)) ∨
    (s.rxState = .inFrame ∧ b ≠ s.cfg.sot ∧ b = s.cfg.eot ∧
      rxByte b s = (s.clearReader, .ok (some (s.rxBuf ++ [b])))) ∨
    (s.rxState = .inFrame ∧ b ≠ s.cfg.sot ∧ b ≠ s.cfg.eot ∧ s.cfg.rxCap ≤ s.rxBuf.length + 1 ∧
      rxByte b s = (s.clearReader, .error .overflow)) ∨
    (s.rxState = .inFrame ∧ b ≠ s.cfg.sot ∧ b ≠ s.cfg.eot ∧ s.rxBuf.length + 1 < s.cfg.rxCap ∧
      rxByte b s = (s.setReader .inFrame (s.rxBuf ++ [b]), .ok none)) := by
  unfold rxByte
  cases hs : s.rxState <;> by_cases h₁ : b = s.cfg.sot <;> by_cases h₂ : b = s.cfg.eot <;>
    by_cases h₃ : s.cfg.rxCap ≤ s.rxBuf.length + 1 <;> simp_all

/-- RX_BYTE writes the reader and nothing else. -/
theorem rxByte_state (b : Byte) (s : State) : ∃ st buf, (rxByte b s).1 = s.setReader st buf := by
  rcases rxByte_cases b s with ⟨_, _, h⟩ | ⟨_, h⟩ | ⟨_, _, _, h⟩ | ⟨_, _, _, _, h⟩ | ⟨_, _, _, _, h⟩ <;> rw [h]
  · exact ⟨s.rxState, s.rxBuf, rfl⟩
  · exact ⟨.inFrame, [b], rfl⟩
  · exact ⟨.hunt, [], rfl⟩
  · exact ⟨.hunt, [], rfl⟩
  · exact ⟨.inFrame, s.rxBuf ++ [b], rfl⟩

/-- RX_BYTE reads the configuration and the reader and nothing else: what the host has outstanding or has been told
makes no difference. -/
theorem rxByte_host (b : Byte) (s : State) (p : List HostAction) (bs : List Byte) (rs : List Result) :
    rxByte b { s with pending := p, stream := bs, results := rs } =
      ({ (rxByte b s).1 with pending := p, stream := bs, results := rs }, (rxByte b s).2) := by
  obtain ⟨cfg, crc, st, buf, p₀, bs₀, rs₀⟩ := s
  cases st <;> simp only [rxByte] <;> split_ifs <;> rfl

theorem rxByte_answer (b : Byte) (s : State) (r : Result) :
    rxByte b (s.answer r) = ((rxByte b s).1.answer r, (rxByte b s).2) := by
  obtain ⟨st, buf, h⟩ := rxByte_state b s
  have := rxByte_host b s s.pending s.stream (s.results ++ [r])
  rw [h] at this
  exact this.trans (by rw [h]; rfl)

@[simp] theorem rxFeed_nil (s : State) : rxFeed [] s = (s, []) := rfl

theorem rxFeed_cons (b : Byte) (chunk : List Byte) (s : State) :
    rxFeed (b :: chunk) s =
      ((rxFeed chunk (rxByte b s).1).1, eventsOf (rxByte b s).2 ++ (rxFeed chunk (rxByte b s).1).2) := rfl

/-- A chunk in two pieces (43_reader.md R174). -/
theorem rxFeed_append (x y : List Byte) (s : State) :
    rxFeed (x ++ y) s = ((rxFeed y (rxFeed x s).1).1, (rxFeed x s).2 ++ (rxFeed y (rxFeed x s).1).2) := by
  induction x generalizing s with
  | nil => simp
  | cons b x ih => simp [rxFeed_cons, ih]

theorem rxFeed_state (chunk : List Byte) (s : State) : ∃ st buf, (rxFeed chunk s).1 = s.setReader st buf := by
  induction chunk generalizing s with
  | nil => exact ⟨s.rxState, s.rxBuf, rfl⟩
  | cons b chunk ih =>
    obtain ⟨st, buf, h⟩ := rxByte_state b s
    obtain ⟨st', buf', h'⟩ := ih (s.setReader st buf)
    exact ⟨st', buf', by rw [rxFeed_cons, h, h']; rfl⟩

theorem rxFeed_host (chunk : List Byte) (s : State) (p : List HostAction) (bs : List Byte) (rs : List Result) :
    rxFeed chunk { s with pending := p, stream := bs, results := rs } =
      ({ (rxFeed chunk s).1 with pending := p, stream := bs, results := rs }, (rxFeed chunk s).2) := by
  induction chunk generalizing s with
  | nil => rfl
  | cons b chunk ih => simp only [rxFeed_cons, rxByte_host, ih]

theorem rxFeed_answer (chunk : List Byte) (s : State) (r : Result) :
    rxFeed chunk (s.answer r) = ((rxFeed chunk s).1.answer r, (rxFeed chunk s).2) := by
  induction chunk generalizing s with
  | nil => rfl
  | cons b chunk ih => simp only [rxFeed_cons, rxByte_answer, ih]

/-- A hunting reader drops every byte that is not an SOT (43_reader.md R171). -/
theorem rxFeed_noise (chunk : List Byte) (s : State) (hs : s.rxState = .hunt) (h : s.cfg.sot ∉ chunk) :
    rxFeed chunk s = (s, []) := by
  induction chunk with
  | nil => rfl
  | cons b chunk ih =>
    simp only [List.mem_cons, not_or] at h
    have hb : rxByte b s = (s, .ok none) := by simp [rxByte, hs, Ne.symm h.1]
    simp [rxFeed_cons, hb, eventsOf, ih h.2]

/-- A reader in a frame keeps bytes that are no delimiter, as long as they leave room for the EOT. -/
theorem rxFeed_interior (chunk : List Byte) (s : State) (hs : s.rxState = .inFrame)
    (h : ∀ b ∈ chunk, b ≠ s.cfg.sot ∧ b ≠ s.cfg.eot) (hl : s.rxBuf.length + chunk.length < s.cfg.rxCap) :
    rxFeed chunk s = (s.setReader .inFrame (s.rxBuf ++ chunk), []) := by
  induction chunk generalizing s with
  | nil => simp [State.setReader, ← hs]
  | cons b chunk ih =>
    obtain ⟨h₁, h₂⟩ := h b (by simp)
    simp only [List.length_cons] at hl
    have hb : rxByte b s = (s.setReader .inFrame (s.rxBuf ++ [b]), .ok none) := by
      simp [rxByte, hs, h₁, h₂, show ¬ s.cfg.rxCap ≤ s.rxBuf.length + 1 by omega]
    have := ih (s.setReader .inFrame (s.rxBuf ++ [b])) rfl
      (fun c hc => h c (by simp [hc])) (by simp; omega)
    simp only [rxFeed_cons, hb, this, eventsOf]
    simp [State.setReader]

end Sys2Proof.Machine
end

