-- ==== Sys2Proof/Laws/Exec.lean ====
section
/-! SUPPORT. What any operation can do, said once: it reads `(CFG, S)`, writes the checksum state and the reader, and
returns one result; the host's end of the interface it neither reads nor writes. -/

namespace Sys2Proof.Machine

open Sys2Proof

/-- The one inversion lemma of `exec`: for given `(CFG, S)` the new `S` and the result are the same whatever the host
has outstanding (`p`, `bs`) and whatever results came before (`rs`), and the operation goes on. -/
theorem exec_next (i : Instr) (s : State) : ∃ (c : U16) (st : RxState) (buf : List Byte) (r : Result),
    ∀ (p : List HostAction) (bs : List Byte) (rs : List Result),
      exec i { s with pending := p, stream := bs, results := rs } =
        .next { cfg := s.cfg, crc := c, rxState := st, rxBuf := buf, pending := p, stream := bs, results := rs ++ [r] } := by
  cases i with
  | crcInit => exact ⟨0x0000, s.rxState, s.rxBuf, ⟨.ok, .u16 0x0000⟩, fun _ _ _ => rfl⟩
  | crcByte b =>
    exact ⟨crcStep s.crc b, s.rxState, s.rxBuf, ⟨.ok, .u16 (crcStep s.crc b)⟩, fun _ _ _ => rfl⟩
  | checksum seq =>
    exact ⟨crcFold 0x0000 seq, s.rxState, s.rxBuf, ⟨.ok, .u16 (crcFold 0x0000 seq)⟩, fun _ _ _ => rfl⟩
  | verify seq =>
    exact ⟨crcFold 0x0000 seq, s.rxState, s.rxBuf, ⟨.ok, .bool (verifies seq)⟩, fun _ _ _ => rfl⟩
  | stuff x => exact ⟨s.crc, s.rxState, s.rxBuf, ⟨.ok, .seq (stuff s.cfg x)⟩, fun _ _ _ => rfl⟩
  | unstuff y =>
    exact ⟨s.crc, s.rxState, s.rxBuf, _, fun p bs rs => returnOrRaise_next ((unstuff s.cfg y).map .seq) _⟩
  | encode dest src cmd payload =>
    exact ⟨s.crc, s.rxState, s.rxBuf, _,
      fun p bs rs => returnOrRaise_next ((encodeFrame s.cfg dest src cmd payload).map .seq) _⟩
  | decode w =>
    exact ⟨s.crc, s.rxState, s.rxBuf, _, fun p bs rs => returnOrRaise_next ((decodeFrame s.cfg w).map .frame) _⟩
  | rxByte b =>
    obtain ⟨st, buf, h⟩ := rxByte_state b s
    refine ⟨s.crc, st, buf, resultOf ((rxByte b s).2.map .cand), fun p bs rs => ?_⟩
    simp only [exec, execRxByte, rxByte_host, returnOrRaise_next, h]
    rfl
  | rxPush chunk =>
    obtain ⟨st, buf, h⟩ := rxFeed_state chunk s
    refine ⟨s.crc, st, buf, ⟨.ok, .events (rxFeed chunk s).2⟩, fun p bs rs => ?_⟩
    simp only [exec, execRxPush, rxFeed_host, returnOk_eq, h]
    rfl
  | rxTimeout => exact ⟨s.crc, .hunt, [], ⟨.timeout, .none⟩, fun _ _ _ => rfl⟩
  | rxFlush => exact ⟨s.crc, .hunt, [], ⟨.ok, .none⟩, fun _ _ _ => rfl⟩

end Sys2Proof.Machine
end

