-- ==== Sys2Proof/Laws/PerInstr.lean ====
section
/-! SUPPORT. Facts proved of every operation, one lemma per constructor. Family `CommandWord`: an operation's
serialized form begins with a legal command word of 30_encoding.md R66, and as a transaction the operation is read
back as itself. -/

namespace Sys2Proof.Laws.CommandWord

open Sys2Proof

/-- The first byte of the serialized form is the command word; its RSV is 0 and its OPSEL is one of the twelve
(30_encoding.md R61, R66); the transaction decodes to the operation (R60, R62). -/
def Statement (i : Instr) : Prop :=
  (Sys2Proof.encode i).head? = some (commandWord i) ∧ rsv (commandWord i) = 0 ∧
    1 ≤ opsel (commandWord i) ∧ opsel (commandWord i) ≤ 12 ∧ decodeTransaction (transactionOf i) = .instr i

/-- The parts that do not depend on the constructor. -/
theorem of_command_word (i : Instr)
    (h : rsv (commandWord i) = 0 ∧ 1 ≤ opsel (commandWord i) ∧ opsel (commandWord i) ≤ 12) : Statement i := by
  refine ⟨rfl, h.1, h.2.1, h.2.2, ?_⟩
  cases i <;> simp [decodeTransaction, transactionOf, operandOf, selected_commandWord]

theorem crcInit : Statement .crcInit :=
  of_command_word .crcInit (by simp [commandWord, rsv, opsel])

theorem crcByte (b : Byte) : Statement (.crcByte b) :=
  of_command_word (.crcByte b) (by simp [commandWord, rsv, opsel])

theorem checksum (seq : List Byte) : Statement (.checksum seq) :=
  of_command_word (.checksum seq) (by simp [commandWord, rsv, opsel])

theorem verify (seq : List Byte) : Statement (.verify seq) :=
  of_command_word (.verify seq) (by simp [commandWord, rsv, opsel])

theorem stuff (x : List Byte) : Statement (.stuff x) :=
  of_command_word (.stuff x) (by simp [commandWord, rsv, opsel])

theorem unstuff (y : List Byte) : Statement (.unstuff y) :=
  of_command_word (.unstuff y) (by simp [commandWord, rsv, opsel])

theorem encode (dest src cmd : Byte) (payload : List Byte) : Statement (.encode dest src cmd payload) :=
  of_command_word (.encode dest src cmd payload) (by simp [commandWord, rsv, opsel])

theorem decode (w : List Byte) : Statement (.decode w) :=
  of_command_word (.decode w) (by simp [commandWord, rsv, opsel])

theorem rxByte (b : Byte) : Statement (.rxByte b) :=
  of_command_word (.rxByte b) (by simp [commandWord, rsv, opsel])

theorem rxPush (chunk : List Byte) : Statement (.rxPush chunk) :=
  of_command_word (.rxPush chunk) (by simp [commandWord, rsv, opsel])

theorem rxTimeout : Statement .rxTimeout :=
  of_command_word .rxTimeout (by simp [commandWord, rsv, opsel])

theorem rxFlush : Statement .rxFlush :=
  of_command_word .rxFlush (by simp [commandWord, rsv, opsel])

end Sys2Proof.Laws.CommandWord
end

