-- ==== Sys2Proof/Tests/Slice0.lean ====
section
/-! SUPPORT. Tests. Expected results are the spec's own: V-… names a vector of 95_test_vectors.md. Then, for every
obligation that has hypotheses, a `witness_` theorem with concrete inputs that meet them. -/

namespace Sys2Proof.Tests

open Sys2Proof Sys2Proof.Machine

/-! ## Helpers -/

/-- The last result after one operation. -/
def answerOf (i : Instr) (s : State) : Option Result :=
  match exec i s with
  | .next t => t.results.getLast?
  | .fault _ => none
  | .refused _ => none

/-- The reader after one operation. -/
def readerAfter (i : Instr) (s : State) : Option (RxState × List Byte) :=
  match exec i s with
  | .next t => some (t.rxState, t.rxBuf)
  | .fault _ => none
  | .refused _ => none

/-- `S.crc` after one operation. -/
def crcAfter (i : Instr) (s : State) : Option U16 :=
  match exec i s with
  | .next t => some t.crc
  | .fault _ => none
  | .refused _ => none

/-- The last result after one step. -/
def answerOfStep (s : State) : Option Result :=
  match step s with
  | .next t => t.results.getLast?
  | .fault _ => none
  | .refused _ => none

/-- `DCFG` (95_test_vectors.md) with another SOE: `WCFG`. -/
def wcfg : Cfg := { resetCfg with soe := 0x1B }

/-- `DCFG` with one alias: `ACFG`. -/
def acfg : Cfg := { resetCfg with aliases := [⟨0x05, 0xA5, 0x5A⟩] }

/-- `DCFG` with no payload: `ZCFG`, `RX_CAP` 16. -/
def zcfg : Cfg := defaultCfg 0

/-- `ACFG` with the SOE of `WCFG`. -/
def wacfg : Cfg := { acfg with soe := 0x1B }

/-- From reset with a configuration, a checksum state. -/
def withCrc (c : U16) : State := { State.reset with crc := c }

/-- From reset with a configuration, inside a frame. -/
def inFrame (cfg : Cfg) (buf : List Byte) : State := { State.resetWith cfg with rxState := .inFrame, rxBuf := buf }

/-- From reset, the host's next actions. -/
def issuing (p : List HostAction) : State := { State.reset with pending := p }

/-- From reset, a serialized command stream. -/
def streaming (bs : List Byte) : State := { State.reset with stream := bs }

/-- The wire frame of V-L2-20, first row. -/
def wire0 : List Byte := [0x0D, 0x01, 0x02, 0x03, 0x61, 0x31, 0x0A]

/-! ## Well-formedness smoke: an ill-formed term for each check -/

/-- A sequence of zeros. -/
def zeros (n : Nat) : List Byte := List.replicate n 0x00

theorem test_longest_sequence : serializableSeq (zeros 0xFFFF) = true ∧ serializableSeq (zeros 0x10000) = false := by
  unfold serializableSeq zeros
  rw [List.length_replicate, List.length_replicate]
  decide

theorem test_long_checksum_not_wf : (Instr.checksum (zeros 0x10000)).wf = false := test_longest_sequence.2

theorem test_long_verify_not_wf : (Instr.verify (zeros 0x10000)).wf = false := test_longest_sequence.2

theorem test_long_stuff_not_wf : (Instr.stuff (zeros 0x10000)).wf = false := test_longest_sequence.2

theorem test_long_unstuff_not_wf : (Instr.unstuff (zeros 0x10000)).wf = false := test_longest_sequence.2

theorem test_long_encode_not_wf : (Instr.encode 0x01 0x02 0x03 (zeros 0x10000)).wf = false := test_longest_sequence.2

theorem test_long_decode_not_wf : (Instr.decode (zeros 0x10000)).wf = false := test_longest_sequence.2

theorem test_long_rxPush_not_wf : (Instr.rxPush (zeros 0x10000)).wf = false := test_longest_sequence.2

/-- `CFG_VALID`, one violation for each bullet of 00_scope.md R9, and the least `RX_CAP` that passes. -/
theorem test_cfgValid_refuses :
    cfgValid { resetCfg with xon := 0x0D } = false ∧
    cfgValid { resetCfg with aliases := [⟨0x05, 0xA5, 0x5A⟩, ⟨0x05, 0xA5, 0x5B⟩] } = false ∧
    cfgValid { resetCfg with aliases := [⟨0x05, 0xA5, 0x5A⟩, ⟨0x06, 0xA5, 0x5A⟩] } = false ∧
    cfgValid { resetCfg with rxCap := 47 } = false ∧ cfgValid resetCfg = true := by decide

/-! ## Decoding: words of V-L2-42 and of 30_encoding.md R63, R66, R67 -/

theorem test_decode_crcInit : decode [0x01] = .instr .crcInit [] := by decide

theorem test_decode_crcByte : decode [0x02, 0x42] = .instr (.crcByte 0x42) [] := by decide

theorem test_decode_checksum :
    decode [0x03, 0x00, 0x05, 0x42, 0x11, 0x04, 0x0F, 0x06] = .instr (.checksum [0x42, 0x11, 0x04, 0x0F, 0x06]) [] := by
  decide

theorem test_decode_verify : decode [0x04, 0x00, 0x02, 0x00, 0x00] = .instr (.verify [0x00, 0x00]) [] := by decide

theorem test_decode_stuff : decode [0x05, 0x00, 0x01, 0x0D] = .instr (.stuff [0x0D]) [] := by decide

theorem test_decode_unstuff : decode [0x06, 0x00, 0x01, 0x5E] = .instr (.unstuff [0x5E]) [] := by decide

theorem test_decode_encode :
    decode [0x07, 0x01, 0x02, 0x42, 0x00, 0x04, 0x11, 0x04, 0x0F, 0x06, 0x0A] =
      .instr (.encode 0x01 0x02 0x42 [0x11, 0x04, 0x0F, 0x06]) [0x0A] := by decide

theorem test_decode_decode :
    decode [0x08, 0x00, 0x07, 0x0D, 0x01, 0x02, 0x03, 0x61, 0x31, 0x0A] = .instr (.decode wire0) [] := by decide

theorem test_decode_rxByte : decode [0x09, 0x0D] = .instr (.rxByte 0x0D) [] := by decide

theorem test_decode_rxPush : decode [0x0A, 0x00, 0x02, 0x0D, 0x0A] = .instr (.rxPush [0x0D, 0x0A]) [] := by decide

theorem test_decode_rxTimeout : decode [0x0B] = .instr .rxTimeout [] := by decide

theorem test_decode_rxFlush : decode [0x0C] = .instr .rxFlush [] := by decide

/-- V-L2-41: reserved words, and the byte after one is the next command. -/
theorem test_decode_illegal :
    decode [0x0D, 0x01] = .illegal 0x0D [0x01] ∧ decode [0x00] = .illegal 0x00 [] ∧
    decode [0x10] = .illegal 0x10 [] ∧ decode [0x8A, 0x00] = .illegal 0x8A [0x00] ∧ decode [0xFF] = .illegal 0xFF [] := by
  decide

theorem test_decode_incomplete :
    decode [] = .empty ∧ decode [0x02] = .incomplete ∧ decode [0x03, 0x00, 0x02, 0x42] = .incomplete ∧
    decode [0x07, 0x01, 0x02, 0x03, 0x00] = .incomplete := by decide

/-- A length with a high byte: MSB first (30_encoding.md R63). -/
theorem test_len16_msb_first : len16 0x0102 = [0x01, 0x02] := by decide

/-- The opcode table's numbering: `match` 0x2 in 8 bits, an operand of zeros; 0x42 in bits 15..8 is the operand byte. -/
theorem test_decodeTableWord :
    decodeTableWord 8 0x02 = some (.crcByte 0x00) ∧ decodeTableWord 16 0x4202 = some (.crcByte 0x42) ∧
    decodeTableWord 8 0x07 = some (.encode 0x00 0x00 0x00 []) ∧ decodeTableWord 24 0x020003 = some (.checksum [0x00, 0x00]) ∧
    decodeTableWord 8 0x0D = none := by decide

/-- The first step after a host has issued one word runs it. -/
theorem test_withFetchWord :
    answerOfStep (State.reset.withFetchWord 8 0x0B) = some ⟨.timeout, .none⟩ ∧
    answerOfStep (State.reset.withFetchWord 16 0x4202) = some ⟨.ok, .u16 0x6886⟩ ∧
    answerOfStep (State.reset.withFetchWord 8 0x00) = some ⟨.illegalOp, .none⟩ := by decide

/-! ## Execution, at most two tests per operation -/

/-- V-L2-1. -/
theorem test_crcInit : crcAfter .crcInit (withCrc 0x94C0) = some 0x0000 := by decide

/-- V-L2-2, feedback from bit 15 and both operands nonzero. -/
theorem test_crcByte :
    crcAfter (.crcByte 0x00) (withCrc 0x8000) = some 0x9188 ∧ crcAfter (.crcByte 0x56) (withCrc 0x1234) = some 0x3C40 := by
  decide

/-- V-L2-3. -/
theorem test_polyStep : polyStep 0x1234 0x56 = 0x3C40 ∧ polyStep 0x0000 0x01 = 0x1021 := by decide

/-- V-L1-1, the golden value, from a state that is not 0 (V-L2-5). -/
theorem test_checksum_golden :
    answerOf (.checksum [0x42, 0x11, 0x04, 0x0F, 0x06]) (withCrc 0x1234) = some ⟨.ok, .u16 0x94C0⟩ := by decide

/-- V-L2-6, the check value of "123456789". -/
theorem test_checksum_check_value :
    answerOf (.checksum [0x31, 0x32, 0x33, 0x34, 0x35, 0x36, 0x37, 0x38, 0x39]) State.reset = some ⟨.ok, .u16 0x31C3⟩ := by
  decide

/-- V-L2-7. -/
theorem test_verify_true :
    answerOf (.verify [0x42, 0x11, 0x04, 0x0F, 0x06, 0x94, 0xC0]) State.reset = some ⟨.ok, .bool true⟩ := by decide

/-- V-L2-7: shorter than two bytes, residue 0. -/
theorem test_verify_short : answerOf (.verify [0x00]) State.reset = some ⟨.ok, .bool false⟩ := by decide

/-- V-L2-10. -/
theorem test_stuff : answerOf (.stuff [0x5E, 0x0D]) State.reset = some ⟨.ok, .seq [0x5E, 0x5E, 0x5E, 0x4D]⟩ := by decide

/-- V-L2-13, `WCFG`. -/
theorem test_stuff_wcfg :
    answerOf (.stuff [0x5E, 0x0D, 0x1B, 0x11]) (State.resetWith wcfg) =
      some ⟨.ok, .seq [0x5E, 0x1B, 0x4D, 0x1B, 0x5B, 0x1B, 0x51]⟩ := by decide

/-- V-L2-11, V-L2-12. -/
theorem test_unstuff :
    answerOf (.unstuff [0x42, 0x5E, 0x51, 0x04, 0x0F, 0x06]) State.reset = some ⟨.ok, .seq [0x42, 0x11, 0x04, 0x0F, 0x06]⟩ := by
  decide

/-- V-L2-12. -/
theorem test_unstuff_errors :
    answerOf (.unstuff [0x01, 0x5E]) State.reset = some ⟨.trailingSoe, .none⟩ ∧
    answerOf (.unstuff [0x5E, 0x8D]) State.reset = some ⟨.badEscape, .none⟩ ∧
    answerOf (.unstuff [0x11]) State.reset = some ⟨.literalReserved, .none⟩ := by decide

/-- V-L1-4: every header byte escaped. -/
theorem test_encode :
    answerOf (.encode 0x0D 0x0A 0x11 [0x13]) State.reset =
      some ⟨.ok, .seq [0x0D, 0x5E, 0x4D, 0x5E, 0x4A, 0x5E, 0x51, 0x5E, 0x53, 0xEC, 0x57, 0x0A]⟩ := by decide

/-- V-L2-27: the destination expanded, the source not; V-L2-21. -/
theorem test_encode_expansion_and_bound :
    answerOf (.encode 0x05 0x01 0x03 [0x07]) (State.resetWith acfg) =
      some ⟨.ok, .seq [0x0D, 0xA5, 0x5A, 0x01, 0x03, 0x07, 0x06, 0x27, 0x0A]⟩ ∧
    answerOf (.encode 0x01 0x02 0x03 (List.replicate 17 0x00)) State.reset = some ⟨.tooLong, .none⟩ := by decide

/-- V-L2-23, V-L2-27 (source folded). -/
theorem test_decode_frame :
    answerOf (.decode [0x0D, 0x5E, 0x4D, 0x02, 0x03, 0x14, 0x50, 0x0A]) State.reset =
      some ⟨.ok, .frame ⟨0x0D, 0x02, 0x03, [], 0x1450⟩⟩ ∧
    answerOf (.decode [0x0D, 0x01, 0xA5, 0x5A, 0x03, 0x07, 0x40, 0xD9, 0x0A]) (State.resetWith acfg) =
      some ⟨.ok, .frame ⟨0x01, 0x05, 0x03, [0x07], 0x40D9⟩⟩ := by decide

/-- V-L2-24, V-L2-27: an error of every check. -/
theorem test_decode_errors :
    (([[], [0x0D], [0x0D, 0x01, 0x5E, 0x0D, 0x03, 0x61, 0x31, 0x0A], [0x0D, 0x01, 0x02, 0x5E, 0x0A],
        [0x0D, 0x5E, 0x5E, 0x0A], [0x0D, 0x11, 0x5E, 0x41, 0x0A], [0x0D, 0x0A],
        [0x0D, 0x01, 0x02, 0x03, 0x61, 0x30, 0x0A]] : List (List Byte)).map fun w =>
      (answerOf (.decode w) State.reset).map Result.rc) =
      [some .missingSot, some .missingEot, some .misplacedDelimiter, some .trailingSoe, some .badEscape,
        some .literalReserved, some .short, some .checksum] ∧
    answerOf (.decode [0x0D, 0xA5, 0x5A, 0x02, 0x97, 0x5A, 0x0A]) (State.resetWith acfg) = some ⟨.short, .none⟩ := by
  decide

/-- V-L2-30: a restart at the second SOT, and a candidate of two bytes. -/
theorem test_rxByte :
    readerAfter (.rxByte 0x0D) (inFrame resetCfg [0x0D, 0x99]) = some (.inFrame, [0x0D]) ∧
    answerOf (.rxByte 0x0A) (inFrame resetCfg [0x0D]) = some ⟨.ok, .cand (some [0x0D, 0x0A])⟩ := by decide

/-- V-L2-31: the fifteenth 0x41 overflows, the fourteenth does not. -/
theorem test_rxByte_overflow :
    answerOf (.rxByte 0x41) (inFrame zcfg (0x0D :: List.replicate 14 0x41)) = some ⟨.overflow, .none⟩ ∧
    answerOf (.rxByte 0x41) (inFrame zcfg (0x0D :: List.replicate 13 0x41)) = some ⟨.ok, .cand none⟩ := by decide

/-- V-L2-32: noise, an orphan EOT, a candidate. -/
theorem test_rxPush :
    answerOf (.rxPush ([0x41, 0x42, 0x0A] ++ wire0)) State.reset = some ⟨.ok, .events [.candidate wire0]⟩ := by decide

/-- V-L2-31: an overflow in position, the bytes after it processed. -/
theorem test_rxPush_overflow :
    answerOf (.rxPush (0x0D :: List.replicate 15 0x41 ++ wire0)) (State.resetWith zcfg) =
      some ⟨.ok, .events [.error .overflow, .candidate wire0]⟩ := by decide

/-- V-L2-34. -/
theorem test_rxTimeout :
    answerOf .rxTimeout (inFrame resetCfg [0x0D, 0x01, 0x02]) = some ⟨.timeout, .none⟩ ∧
    readerAfter .rxTimeout (inFrame resetCfg [0x0D, 0x01, 0x02]) = some (.hunt, []) := by decide

/-- V-L2-35. -/
theorem test_rxFlush :
    answerOf .rxFlush (inFrame resetCfg [0x0D, 0x99]) = some ⟨.ok, .none⟩ ∧
    readerAfter .rxFlush (inFrame resetCfg [0x0D, 0x99]) = some (.hunt, []) := by decide

/-- V-L2-42, the column "result bytes". -/
theorem test_result_bytes :
    (answerOf (.encode 0x01 0x02 0x03 []) State.reset).bind serializeResult = some ([0x00, 0x00, 0x07] ++ wire0) ∧
    (answerOf (.decode wire0) State.reset).bind serializeResult =
      some [0x00, 0x01, 0x02, 0x03, 0x00, 0x00, 0x61, 0x31] ∧
    (answerOf (.rxPush [0x0D, 0x0A]) State.reset).bind serializeResult =
      some [0x00, 0x00, 0x01, 0x00, 0x00, 0x02, 0x0D, 0x0A] := by decide

/-- 30_encoding.md R71, the examples. -/
theorem test_listing :
    listing .crcInit = "CRC_INIT" ∧ listing (.crcByte 0x42) = "CRC_BYTE 0x42" ∧
    listing (.checksum [0x42, 0x11]) = "CHECKSUM [0x42, 0x11]" ∧
    listing (.encode 0x01 0x02 0x03 []) = "ENCODE dest=0x01, src=0x02, cmd=0x03, payload=[]" := by decide

/-! ## Witnesses: inputs that meet the hypotheses of each obligation, all together, at boundary values -/

/-- The state after one operation; `s` itself where there is none. -/
def after (i : Instr) (s : State) : State :=
  match exec i s with
  | .next t => t
  | .fault _ => s
  | .refused _ => s

/-- An operation's hypothesis `exec i s = .next t`, met at `t = after i s`. -/
theorem exec_after (i : Instr) (s : State) : exec i s = .next (after i s) := by
  obtain ⟨c, st, buf, r, h⟩ := exec_next i s
  have h' := h s.pending s.stream s.results
  simp only [after, h']

theorem witness_IllegalCommandWordChangesNoState :
    (opsel 0x0D ∈ [0x0#4, 0xD#4, 0xE#4, 0xF#4] ∨ rsv 0x0D ≠ 0) ∧ (opsel 0x11 ∈ [0x0#4, 0xD#4, 0xE#4, 0xF#4] ∨ rsv 0x11 ≠ 0) ∧
    (opsel 0x00 ∈ [0x0#4, 0xD#4, 0xE#4, 0xF#4] ∨ rsv 0x00 ≠ 0) ∧
    (streaming [0x0D, 0x01]).pending = [] ∧ (streaming [0x0D, 0x01]).stream = 0x0D :: [0x01] ∧
    (issuing [.transaction ⟨0x11, .byte 0x42⟩]).pending = .transaction ⟨0x11, .byte 0x42⟩ :: [] := by decide

theorem witness_DecodeOfEncodeIsTheInstruction :
    (Instr.checksum []).wf = true ∧ (Instr.rxPush (zeros 0xFFFF)).wf = true ∧ Instr.rxFlush.wf = true :=
  ⟨rfl, test_longest_sequence.1, rfl⟩

theorem witness_EncodeOfDecodeIsTheStream :
    decode [0x07, 0x01, 0x02, 0x03, 0x00, 0x01, 0x0D, 0x0B] = .instr (.encode 0x01 0x02 0x03 [0x0D]) [0x0B] ∧
    decode [0x03, 0x00, 0x00] = .instr (.checksum []) [] := by decide

theorem witness_TransactionAndInstructionAgree :
    decodeTransaction ⟨0x02, .byte 0x42⟩ = .instr (.crcByte 0x42) ∧
    decodeTransaction ⟨0x0C, .none⟩ = .instr .rxFlush := by decide

theorem witness_StepRunsTheDecodedInstruction :
    (streaming [0x02, 0x42, 0x0B]).pending = [] ∧
    decode (streaming [0x02, 0x42, 0x0B]).stream = .instr (.crcByte 0x42) [0x0B] := by decide

theorem witness_StepRunsTheHostsTransaction :
    (issuing [.transaction ⟨0x02, .byte 0x42⟩]).pending = .transaction (transactionOf (.crcByte 0x42)) :: [] := by decide

theorem witness_StepHoldsStateBetweenTransactions :
    (State.reset.pending = [] ∧ decode State.reset.stream = .empty) ∧
    (streaming [0x03, 0x00, 0x01]).pending = [] ∧ decode (streaming [0x03, 0x00, 0x01]).stream = .incomplete := by decide

theorem witness_SerializedProgramRunsInOrder :
    (∀ i ∈ [Instr.crcInit, Instr.checksum [0x42]], i.wf = true) ∧
    (streaming [0x01, 0x03, 0x00, 0x01, 0x42, 0x0D]).pending = [] ∧
    (streaming [0x01, 0x03, 0x00, 0x01, 0x42, 0x0D]).stream =
      [Instr.crcInit, Instr.checksum [0x42]].flatMap encode ++ [0x0D] := by decide

theorem witness_OperationsLeaveHostCommandsAlone :
    exec (.rxPush wire0) (streaming [0x01]) = .next (after (.rxPush wire0) (streaming [0x01])) :=
  exec_after (.rxPush wire0) (streaming [0x01])

theorem witness_StepCompletesForProperHost :
    ∀ a ∈ (issuing [.transaction ⟨0x02, .byte 0x42⟩, .transaction ⟨0x0D, .byte 0x42⟩, .reset zcfg]).pending,
      properAction a = true := by decide

theorem witness_EveryOperationReturnsOneResult :
    (⟨.overflow, .none⟩ : Result).rc ≠ .ok ∧ (⟨.ok, .u16 0x6886⟩ : Result).rc = .ok := by decide

theorem witness_ErrorsAreOnlyThoseListed :
    exec (.rxPush (0x0D :: List.replicate 15 0x41)) (State.resetWith zcfg) =
      .next (after (.rxPush (0x0D :: List.replicate 15 0x41)) (State.resetWith zcfg)) ∧
    (after (.rxPush (0x0D :: List.replicate 15 0x41)) (State.resetWith zcfg)).results =
      (State.resetWith zcfg).results ++ [⟨.ok, .events [.error .overflow]⟩] ∧
    .error .overflow ∈ [Event.error .overflow] :=
  ⟨exec_after (.rxPush (0x0D :: List.replicate 15 0x41)) (State.resetWith zcfg), by decide, by decide⟩

theorem witness_ResultCodeBytesAndFields : resultByte .illegalOp = resultByte .illegalOp := by decide

theorem witness_SerializedResultsFollowTheTable :
    ((zeros 0xFFFF).length ≤ 0xFFFF ∧ ([] : List Event).length ≤ 0xFFFF) ∧
    (∀ c : List Byte, .candidate c ∈ [Event.error .overflow, Event.candidate [0x0D, 0x0A]] → c.length ≤ 0xFFFF) ∧
    exec (.rxByte 0x0D) State.reset = .next (after (.rxByte 0x0D) State.reset) ∧
    (after (.rxByte 0x0D) State.reset).results = State.reset.results ++ [⟨.ok, .cand none⟩] ∧
    serializeResult ⟨.ok, .cand none⟩ = some [0x00, 0x00] ∧ [0x00, 0x00] ++ [0x42#8] = [0x00, 0x00] ++ [0x42] := by
  refine ⟨⟨?_, by decide⟩, ?_, exec_after (.rxByte 0x0D) State.reset, by decide, by decide, rfl⟩
  · exact of_decide_eq_true test_longest_sequence.1
  · intro c h
    simp only [List.mem_cons, List.not_mem_nil, or_false, reduceCtorEq, false_or, Event.candidate.injEq] at h
    subst h
    decide

theorem witness_EarlierResultsHaveNoInfluence :
    State.reset.cfg = (after .crcInit State.reset).cfg ∧ State.reset.crc = (after .crcInit State.reset).crc ∧
    State.reset.rxState = (after .crcInit State.reset).rxState ∧ State.reset.rxBuf = (after .crcInit State.reset).rxBuf ∧
    State.reset.results ≠ (after .crcInit State.reset).results := by decide

theorem witness_ConfigurationValidityAndRefusal :
    (issuing [.reset { resetCfg with rxCap := 47 }]).pending = .reset { resetCfg with rxCap := 47 } :: [] ∧
    cfgValid { resetCfg with rxCap := 47 } = false := by decide

theorem witness_ResetLatchesConfigurationAndClears :
    (issuing [.reset zcfg]).pending = .reset zcfg :: [] ∧ cfgValid zcfg = true ∧ zcfg.rxCap = 2 * (zcfg.maxPayload + 7) + 2 := by
  decide

theorem witness_ResetEqualsInitThenFlush : cfgValid (inFrame acfg [0x0D, 0x01]).cfg = true := by decide

theorem witness_OnlyResetChangesTheConfiguration :
    exec (.encode 0x01 0x02 0x03 []) State.reset = .next (after (.encode 0x01 0x02 0x03 []) State.reset) ∧
    step (issuing [.reset zcfg]) = .next (State.resetWith zcfg) :=
  ⟨exec_after (.encode 0x01 0x02 0x03 []) State.reset, rfl⟩

theorem witness_InvariantHoldsAtReset : cfgValid acfg = true ∧ cfgValid zcfg = true := by decide

/-- In `ZCFG` the buffer can hold 15 bytes; one more byte overflows. -/
theorem witness_InvariantIsKeptByEveryStep :
    StateInv (inFrame zcfg (0x0D :: List.replicate 14 0x41)) ∧
    exec (.rxByte 0x41) (inFrame zcfg (0x0D :: List.replicate 14 0x41)) =
      .next (after (.rxByte 0x41) (inFrame zcfg (0x0D :: List.replicate 14 0x41))) ∧
    StateInv (streaming [0x0B]) ∧ step (streaming [0x0B]) = .next (after .rxTimeout State.reset) :=
  ⟨by decide, exec_after (.rxByte 0x41) (inFrame zcfg (0x0D :: List.replicate 14 0x41)), by decide, rfl⟩

theorem witness_VerifyResult :
    ([0x61, 0x31] : List Byte) = [] ++ [hiByte 0x6131, loByte 0x6131] ∧
    ([0x01, 0x02, 0x03, 0x61, 0x31] : List Byte) = [0x01, 0x02, 0x03] ++ [hiByte 0x6131, loByte 0x6131] := by decide

theorem witness_SingleBitErrorIsDetected :
    crcFold 0x0000 [0x01, 0x02, 0x03, 0x61, 0x31] = 0x0000 ∧ [0x01#8, 0x02#8, 0x03#8, 0x61#8, 0x31#8][4]? = some 0x31#8 ∧
    [0x01#8, 0x02#8, 0x03#8, 0x61#8, 0x31#8][0]? = some 0x01#8 ∧ (0 < 8 ∧ 7 < 8) := by decide

theorem witness_ChecksumOperationsFrame :
    (∃ x, Instr.verify [0x00, 0x00] = .verify x) ∧
    exec (.verify [0x00, 0x00]) (inFrame acfg [0x0D]) = .next (after (.verify [0x00, 0x00]) (inFrame acfg [0x0D])) :=
  ⟨⟨[0x00, 0x00], rfl⟩, exec_after (.verify [0x00, 0x00]) (inFrame acfg [0x0D])⟩

theorem witness_StuffedBytesHoldNoDelimiter :
    cfgValid resetCfg = true ∧
    (∀ r ∈ reservedSet resetCfg, r ||| 0x40 ∉ [resetCfg.sot, resetCfg.eot, resetCfg.xon, resetCfg.xoff]) ∧
    0x4D ∈ stuff resetCfg [0x0D] ∧ DefaultSentinels resetCfg ∧ wfEsc wcfg = true := by decide

theorem witness_UnstuffResult :
    unstuff resetCfg [0x5E, 0x4D] = .ok [0x0D] ∧ unstuff resetCfg [0x5E, 0x5E] = .error .badEscape ∧
    (0x11 : Byte) ≠ resetCfg.soe := ⟨rfl, rfl, by decide⟩

theorem witness_UnstuffReportsTheLeftmostFault :
    unstuff State.reset.cfg [0x41, 0x5E, 0x4D] = .ok [0x41, 0x0D] ∧ canonicalEscape State.reset.cfg 0x5E = false ∧
    (reserved State.reset.cfg 0x11 = true ∧ 0x11 ≠ State.reset.cfg.soe) ∧ unstuff State.reset.cfg [] = .ok [] :=
  ⟨rfl, by decide, by decide, rfl⟩

theorem witness_StuffInvertsUnstuff :
    exec (.unstuff [0x5E, 0x51]) State.reset = .next (after (.unstuff [0x5E, 0x51]) State.reset) ∧
    (after (.unstuff [0x5E, 0x51]) State.reset).results = State.reset.results ++ [⟨.ok, .seq [0x11]⟩] :=
  ⟨exec_after (.unstuff [0x5E, 0x51]) State.reset, by decide⟩

theorem witness_UnstuffInvertsStuff :
    (∀ b ∈ [0x0D#8, 0x40#8, 0xFF#8], reserved State.reset.cfg b = true → b < 0x40) ∧
    wfEsc (State.resetWith wcfg).cfg = true := by decide

theorem witness_DefaultSoeDoesNotRoundTrip :
    DefaultSentinels State.reset.cfg ∧ (0x5E : Byte) ∈ [0x0D#8, 0x5E#8] := by decide

/-- A payload of 16 is accepted and one of 17 is too long; both kinds of address. -/
theorem witness_EncodeResult :
    State.reset.cfg.maxPayload < (zeros 17).length ∧
    (cfgValid acfg = true ∧ (zeros 16).length ≤ acfg.maxPayload) ∧
    (∃ a ∈ acfg.aliases, a.canonical = 0x05 ∧ [0xA5, 0x5A] = [a.first, a.second]) ∧
    (∀ a ∈ acfg.aliases, a.canonical ≠ 0x01) := by decide

theorem witness_WireFrameShapeAndLength :
    (cfgValid wacfg = true ∧ wfEsc wacfg = true ∧ (zeros 16).length ≤ wacfg.maxPayload) ∧
    cfgValid resetCfg = true ∧ DefaultSentinels resetCfg ∧ ([] : List Byte).length ≤ resetCfg.maxPayload := by decide

/-- A pair at the front, no pair, and a field in the last byte. -/
theorem witness_AliasFoldIsGreedy :
    cfgValid acfg = true ∧
    (⟨0x05, 0xA5, 0x5A⟩ ∈ acfg.aliases ∧ [0xA5#8, 0x5A#8][0]? = some 0xA5 ∧ [0xA5#8, 0x5A#8][1]? = some 0x5A) ∧
    ([0xA5#8, 0x5A#8][1]? = some 0x5A ∧ ∀ a ∈ acfg.aliases,
      ¬ ([0xA5#8, 0x5A#8][1]? = some a.first ∧ [0xA5#8, 0x5A#8][2]? = some a.second)) := by decide

/-- One operand for each clause: no SOT; no EOT (twice); a raw delimiter; a stuffing error; four bytes; a bad residue;
fields of which an alias leaves too few; a payload one byte too long; a frame. -/
theorem witness_DecodeChecksInOrder :
    (([] : List Byte).head? ≠ some acfg.sot) ∧
    ([0x0D#8].head? = some acfg.sot ∧ [0x0D#8].length < 2) ∧
    ([0x0D#8, 0x01#8].head? = some acfg.sot ∧ [0x0D#8, 0x01#8].getLast? ≠ some acfg.eot) ∧
    ([0x0D, 0x0A, 0x0A] = acfg.sot :: [0x0A] ++ [acfg.eot] ∧ acfg.eot ∈ [0x0A#8]) ∧
    (acfg.sot ∉ [0x5E#8] ∧ acfg.eot ∉ [0x5E#8] ∧ unstuff acfg [0x5E] = .error .trailingSoe) ∧
    (unstuff acfg [0x01, 0x02, 0x03, 0x61] = .ok [0x01, 0x02, 0x03, 0x61] ∧ [0x01#8, 0x02#8, 0x03#8, 0x61#8].length < 5) ∧
    (5 ≤ [0x01#8, 0x02#8, 0x03#8, 0x61#8, 0x30#8].length ∧ crcFold 0x0000 [0x01, 0x02, 0x03, 0x61, 0x30] ≠ 0x0000) ∧
    (crcFold 0x0000 [0xA5, 0x5A, 0x02, 0x97, 0x5A] = 0x0000 ∧
      aliasFold acfg [0xA5, 0x5A, 0x02, 0x97, 0x5A] 0 = (0x05, 2) ∧
      aliasFold acfg [0xA5, 0x5A, 0x02, 0x97, 0x5A] 2 = (0x02, 3) ∧ [0xA5#8, 0x5A#8, 0x02#8, 0x97#8, 0x5A#8].length < 3 + 3) ∧
    (crcFold 0x0000 [0x01, 0x02, 0x03, 0x61, 0x31] = 0x0000 ∧ aliasFold acfg [0x01, 0x02, 0x03, 0x61, 0x31] 0 = (0x01, 1) ∧
      aliasFold acfg [0x01, 0x02, 0x03, 0x61, 0x31] 1 = (0x02, 2) ∧
      [0x01#8, 0x02#8, 0x03#8, 0x61#8, 0x31#8].drop 2 = 0x03 :: [] ++ [0x61, 0x31] ∧
      ([] : List Byte).length ≤ acfg.maxPayload) ∧
    (zcfg.maxPayload < [0x03#8].length ∧ crcFold 0x0000 [0x01, 0x02, 0x02, 0x03, 0x4E, 0xD5] = 0x0000 ∧
      [0x01#8, 0x02#8, 0x02#8, 0x03#8, 0x4E#8, 0xD5#8].drop 2 = 0x02 :: [0x03] ++ [0x4E, 0xD5]) := by
  refine ⟨by decide, by decide, by decide, by decide, ⟨by decide, by decide, rfl⟩, ⟨rfl, by decide⟩, by decide, by decide,
    by decide, ?_⟩
  decide

theorem witness_DecodeOfEncodedFrameIsTheFrame :
    (cfgValid wacfg = true ∧ wfEsc wacfg = true ∧ (zeros 16).length ≤ wacfg.maxPayload) ∧
    (∀ a ∈ wacfg.aliases, ¬ (a.first = 0xA5 ∧ a.second = 0x03)) ∧
    (∀ a ∈ wacfg.aliases, a.canonical ≠ 0xA5) ∧ (∀ a ∈ wacfg.aliases, ¬ (a.first = 0xA5 ∧ a.second = 0xA5)) := by decide

/-- V-L2-22: a header byte 0x5E, and 0x5E in the checksum alone; V-L2-20: none. -/
theorem witness_DefaultRoundTripFailsExactlyOnSoe :
    (cfgValid resetCfg = true ∧ DefaultSentinels resetCfg ∧ resetCfg.aliases = [] ∧ (zeros 16).length ≤ resetCfg.maxPayload) ∧
    0x5E ∉ [0x01#8, 0x02#8, 0x03#8, hiByte (crcFold 0x0000 [0x01, 0x02, 0x03]), loByte (crcFold 0x0000 [0x01, 0x02, 0x03])] ∧
    0x5E ∈ [0x01#8, 0x02#8, 0x84#8, hiByte (crcFold 0x0000 [0x01, 0x02, 0x84]), loByte (crcFold 0x0000 [0x01, 0x02, 0x84])] := by
  decide

theorem witness_EncodeOfDecodedFrameIsTheWire :
    State.reset.cfg.aliases = [] ∧ exec (.decode wire0) State.reset = .next (after (.decode wire0) State.reset) ∧
    (after (.decode wire0) State.reset).results = State.reset.results ++ [⟨.ok, .frame ⟨0x01, 0x02, 0x03, [], 0x6131⟩⟩] :=
  ⟨rfl, exec_after (.decode wire0) State.reset, by decide⟩

theorem witness_DecodeAcceptsExactlyTheChecksum :
    cfgValid wacfg = true ∧ wfEsc wacfg = true ∧ 3 ≤ [0x5E#8, 0x1B#8, 0x03#8].length := by decide

theorem witness_StufferAndCodecArePure :
    (∃ w, Instr.decode wire0 = .decode w) ∧ (State.resetWith acfg).cfg = acfg := ⟨⟨wire0, rfl⟩, rfl⟩

/-- `ZCFG`, `RX_CAP` 16: a buffer of 15 bytes has no room for another byte, one of 14 has. -/
theorem witness_RxByteResult :
    ((State.resetWith zcfg).rxState = .hunt ∧ (0x0A : Byte) ≠ zcfg.sot) ∧ (0x0D : Byte) = zcfg.sot ∧
    ((inFrame zcfg [0x0D]).rxState = .inFrame ∧ (0x0A : Byte) ≠ zcfg.sot ∧ (0x0A : Byte) = zcfg.eot) ∧
    ((0x41 : Byte) ≠ zcfg.sot ∧ (0x41 : Byte) ≠ zcfg.eot ∧
      zcfg.rxCap ≤ (inFrame zcfg (0x0D :: List.replicate 14 0x41)).rxBuf.length + 1 ∧
      (inFrame zcfg (0x0D :: List.replicate 13 0x41)).rxBuf.length + 1 < zcfg.rxCap) := by decide

/-- A candidate of exactly `RX_CAP` bytes from RX_BYTE, and one from RX_PUSH. -/
theorem witness_CandidatesAreDelimitedAndBounded :
    (StateInv (inFrame zcfg (0x0D :: List.replicate 14 0x41)) ∧
      exec (.rxByte 0x0A) (inFrame zcfg (0x0D :: List.replicate 14 0x41)) =
        .next (after (.rxByte 0x0A) (inFrame zcfg (0x0D :: List.replicate 14 0x41))) ∧
      (after (.rxByte 0x0A) (inFrame zcfg (0x0D :: List.replicate 14 0x41))).results =
        [] ++ [⟨.ok, .cand (some (0x0D :: List.replicate 14 0x41 ++ [0x0A]))⟩]) ∧
    StateInv State.reset ∧ exec (.rxPush wire0) State.reset = .next (after (.rxPush wire0) State.reset) ∧
      (after (.rxPush wire0) State.reset).results = [] ++ [⟨.ok, .events [.candidate wire0]⟩] :=
  ⟨⟨by decide, exec_after (.rxByte 0x0A) (inFrame zcfg (0x0D :: List.replicate 14 0x41)), by decide⟩, by decide,
    exec_after (.rxPush wire0) State.reset, by decide⟩

/-- Hunting and in a frame, with noise before; the longest buffer and stream that cannot reach `RX_CAP` 16. -/
theorem witness_CandidatesAreTheSourceAlgorithms :
    (StateInv (State.resetWith zcfg) ∧ zcfg.eot ∉ [0x41#8] ∧ zcfg.sot ∉ [0x41#8] ∧
      (State.resetWith zcfg).rxBuf.length + (zeros 15).length < zcfg.rxCap) ∧
    (StateInv (inFrame zcfg [0x0D, 0x41]) ∧ zcfg.eot ∉ [0x0D#8, 0x99#8] ∧
      ((inFrame zcfg [0x0D, 0x41]).rxState = .hunt → zcfg.sot ∉ [0x0D#8, 0x99#8]) ∧
      (inFrame zcfg [0x0D, 0x41]).rxBuf.length + (zeros 13).length < zcfg.rxCap) ∧
    ∀ rc : ResultCode, .error rc ∉ [Event.candidate wire0] := by
  refine ⟨by decide, by decide, ?_⟩
  intro rc h
  simp at h

theorem witness_LateTailIsDiscarded :
    (Instr.rxTimeout = .rxTimeout ∨ Instr.rxTimeout = .rxFlush) ∧
    (inFrame resetCfg [0x0D, 0x01, 0x02]).cfg.sot ∉ [0x03#8, 0x61#8, 0x31#8, 0x0A#8] := by decide

theorem witness_ReaderOperationsFrame :
    (∃ b, Instr.rxByte 0x41 = .rxByte b) ∧
    exec (.rxByte 0x41) (inFrame zcfg [0x0D]) = .next (after (.rxByte 0x41) (inFrame zcfg [0x0D])) :=
  ⟨⟨0x41, rfl⟩, exec_after (.rxByte 0x41) (inFrame zcfg [0x0D])⟩

theorem witness_IdempotentOperations : ∃ x, Instr.checksum [0x42] = .checksum x := ⟨[0x42], rfl⟩

theorem witness_EncodedFrameSurvivesTheReader :
    (cfgValid wacfg = true ∧ (wfEsc wacfg = true ∨ DefaultSentinels wacfg) ∧ (zeros 16).length ≤ wacfg.maxPayload) ∧
    cfgValid acfg = true ∧ (wfEsc acfg = true ∨ DefaultSentinels acfg) ∧ ([] : List Byte).length ≤ acfg.maxPayload := by
  decide

end Sys2Proof.Tests
end

section
/-! SUPPORT. What a step does when the host's next action is a reset (70_reset_and_hazards.md R230, R231). -/

namespace Sys2Proof.Machine

open Sys2Proof

/-- Where the host's next action is a reset, the step is that reset, the action taken. -/
theorem step_of_pending_reset {s : State} {cfg : Cfg} {rest : List HostAction}
    (h : s.pending = .reset cfg :: rest) : step s = hostReset cfg (s.setPending rest) := by
  simp only [step, fetch, h]

theorem hostReset_of_invalid {cfg : Cfg} (h : cfgValid cfg = false) (s : State) :
    hostReset cfg s = .refused .invalidConfiguration := by
  simpa [h] using hostReset_cases cfg s

end Sys2Proof.Machine
end

section
/-! PROOFS. The scope of the model (00_scope.md): `CFG_VALID` in the words of R9. -/

namespace Sys2Proof.Machine

open Sys2Proof

/-- The five sentinels are pairwise distinct (00_scope.md R9, first bullet). -/
theorem reservedSet_nodup_iff (cfg : Cfg) : (reservedSet cfg).Nodup ↔
    cfg.sot ≠ cfg.eot ∧ cfg.sot ≠ cfg.xon ∧ cfg.sot ≠ cfg.xoff ∧ cfg.sot ≠ cfg.soe ∧ cfg.eot ≠ cfg.xon ∧
      cfg.eot ≠ cfg.xoff ∧ cfg.eot ≠ cfg.soe ∧ cfg.xon ≠ cfg.xoff ∧ cfg.xon ≠ cfg.soe ∧ cfg.xoff ≠ cfg.soe := by
  simp [reservedSet, and_assoc]

/-- A list's images under `f` are pairwise distinct exactly when they differ at any two different positions. -/
theorem nodup_map_iff_ne_at {α β : Type} (f : α → β) (l : List α) :
    (l.map f).Nodup ↔ ∀ j k : Fin l.length, j ≠ k → f l[j] ≠ f l[k] := by
  have images : l.map f = List.ofFn fun j : Fin l.length => f l[j] := (List.ofFn_getElem_eq_map l f).symm
  rw [images, List.nodup_ofFn]
  exact forall₂_congr fun j k => not_imp_not.symm

/-- The alias table's canonical bytes, and its alias pairs, are pairwise distinct (00_scope.md R9, second bullet). -/
theorem aliases_nodup_iff (aliases : List AliasEntry) :
    ((aliases.map AliasEntry.canonical).Nodup ∧ (aliases.map aliasPair).Nodup) ↔
      ∀ j k : Fin aliases.length, j ≠ k →
        aliases[j].canonical ≠ aliases[k].canonical ∧
        (aliases[j].first, aliases[j].second) ≠ (aliases[k].first, aliases[k].second) := by
  simp only [nodup_map_iff_ne_at, imp_and, forall_and, aliasPair]

/-- Settles O18: `CFG_VALID` bullet by bullet, and the step of a reset that fails it. -/
theorem configurationValidityAndRefusal : Obligations.ConfigurationValidityAndRefusal := by
  refine ⟨fun cfg => ?_, fun s cfg rest hpending hinvalid => ?_⟩
  · rw [cfgValid_iff, ← reservedSet_nodup_iff, ← aliases_nodup_iff, and_assoc, defaultRxCap]
  · rw [step_of_pending_reset hpending, hostReset_of_invalid hinvalid]

end Sys2Proof.Machine
end

section
/-! SUPPORT. The step by what the host offers next, and what any step can do (00_scope.md R5, R6; 30_encoding.md R60,
R67; 60_exceptions.md R215). -/

namespace Sys2Proof.Machine

open Sys2Proof

theorem step_of_pending_instr {s : State} {tr : Transaction} {rest : List HostAction} {i : Instr}
    (h : s.pending = .transaction tr :: rest) (hd : decodeTransaction tr = .instr i) :
    step s = exec i (s.setPending rest) := by
  simp only [step, fetch, h, takeTransaction, hd]

theorem step_of_pending_illegal {s : State} {tr : Transaction} {rest : List HostAction}
    (h : s.pending = .transaction tr :: rest) (hd : decodeTransaction tr = .illegal) :
    step s = illegalCommand (s.setPending rest) := by
  simp only [step, fetch, h, takeTransaction, hd]

theorem step_of_pending_wrongShape {s : State} {tr : Transaction} {rest : List HostAction}
    (h : s.pending = .transaction tr :: rest) (hd : decodeTransaction tr = .wrongShape) :
    step s = .refused .operandShape := by
  simp only [step, fetch, h, takeTransaction, hd]

theorem step_of_stream_instr {s : State} {i : Instr} {rest : List Byte}
    (h : s.pending = []) (hd : decode s.stream = .instr i rest) : step s = exec i (s.setStream rest) := by
  simp only [step, fetch, h, takeSerialized, hd]

theorem step_of_stream_illegal {s : State} {cw : Byte} {rest : List Byte}
    (h : s.pending = []) (hd : decode s.stream = .illegal cw rest) :
    step s = illegalCommand (s.setStream rest) := by
  simp only [step, fetch, h, takeSerialized, hd]

theorem step_of_stream_incomplete {s : State} (h : s.pending = []) (hd : decode s.stream = .incomplete) :
    step s = .next s := by
  simp only [step, fetch, h, takeSerialized, hd]

theorem step_of_stream_empty {s : State} (h : s.pending = []) (hd : decode s.stream = .empty) :
    step s = .next s := by
  simp only [step, fetch, h, takeSerialized, hd]

/-- The one inversion lemma of `step`: a step that completes ran an operation, answered an illegal command word, held
the state, or was a reset. `p` and `bs` are what the host has left outstanding. -/
theorem step_next_cases {s t : State} (h : step s = .next t) :
    (∃ i p bs, exec i { s with pending := p, stream := bs } = .next t) ∨
    (∃ p bs, t = { s with pending := p, stream := bs, results := s.results ++ [⟨.illegalOp, .none⟩] }) ∨
    t = s ∨
    ∃ cfg rest, s.pending = .reset cfg :: rest ∧ cfgValid cfg = true ∧
      t = { State.resetWith cfg with pending := rest, stream := s.stream, results := s.results } := by
  match hp : s.pending with
  | .transaction tr :: rest =>
    cases hd : decodeTransaction tr with
    | instr i => exact .inl ⟨i, rest, s.stream, step_of_pending_instr hp hd ▸ h⟩
    | illegal =>
      cases step_of_pending_illegal hp hd ▸ h
      exact .inr (.inl ⟨rest, s.stream, rfl⟩)
    | wrongShape => cases step_of_pending_wrongShape hp hd ▸ h
  | .reset cfg :: rest =>
    rw [step_of_pending_reset hp] at h
    obtain ⟨hvalid, hrun⟩ | ⟨-, hrun⟩ := hostReset_cases cfg (s.setPending rest) <;> cases hrun ▸ h
    exact .inr (.inr (.inr ⟨cfg, rest, rfl, hvalid, rfl⟩))
  | [] =>
    cases hd : decode s.stream with
    | instr i rest => exact .inl ⟨i, [], rest, hp ▸ step_of_stream_instr hp hd ▸ h⟩
    | illegal cw rest =>
      cases step_of_stream_illegal hp hd ▸ h
      exact .inr (.inl ⟨s.pending, rest, rfl⟩)
    | incomplete =>
      cases step_of_stream_incomplete hp hd ▸ h
      exact .inr (.inr (.inl rfl))
    | empty =>
      cases step_of_stream_empty hp hd ▸ h
      exact .inr (.inr (.inl rfl))

end Sys2Proof.Machine
end

section
/-! SUPPORT. What the operations of each unit write: the Checksum Engine `S.crc`, the Transport Reader its state and
buffer, the Byte Stuffer and the Frame Codec nothing (10_state.md R29 to R32), and each returns one result. -/

namespace Sys2Proof.Machine

open Sys2Proof

/-- The operations of the Checksum Engine write `S.crc` (10_state.md R30). -/
theorem exec_checksumEngine {i : Instr} {s t : State}
    (hi : i = .crcInit ∨ (∃ b, i = .crcByte b) ∨ (∃ x, i = .checksum x) ∨ (∃ x, i = .verify x))
    (h : exec i s = .next t) : ∃ c r, t = (s.setCrc c).answer r := by
  rcases hi with rfl | ⟨b, rfl⟩ | ⟨x, rfl⟩ | ⟨x, rfl⟩ <;> cases h <;> exact ⟨_, _, rfl⟩

/-- The operations of the Byte Stuffer and the Frame Codec write no state (41_stuffer.md R121, R123; 42_frame_codec.md
R151). -/
theorem exec_stufferOrCodec {i : Instr} {s t : State}
    (hi : (∃ x, i = .stuff x) ∨ (∃ y, i = .unstuff y) ∨
      (∃ dest src cmd payload, i = .encode dest src cmd payload) ∨ (∃ w, i = .decode w))
    (h : exec i s = .next t) : ∃ r, t = s.answer r := by
  rcases hi with ⟨x, rfl⟩ | ⟨y, rfl⟩ | ⟨dest, src, cmd, payload, rfl⟩ | ⟨w, rfl⟩
  · cases h
    exact ⟨_, rfl⟩
  all_goals
    cases (returnOrRaise_next _ s).symm.trans h
    exact ⟨_, rfl⟩

/-- The operations of the Transport Reader put bytes through it or clear it (43_reader.md R171, R173, R175, R176). -/
theorem exec_transportReader {i : Instr} {s t : State}
    (hi : (∃ b, i = .rxByte b) ∨ (∃ x, i = .rxPush x) ∨ i = .rxTimeout ∨ i = .rxFlush)
    (h : exec i s = .next t) :
    (∃ chunk r, t = (rxFeed chunk s).1.answer r) ∨ ∃ r, t = s.clearReader.answer r := by
  rcases hi with ⟨b, rfl⟩ | ⟨x, rfl⟩ | rfl | rfl
  · cases (returnOrRaise_next _ (rxByte b s).1).symm.trans h
    exact .inl ⟨[b], _, rfl⟩
  · cases h
    exact .inl ⟨x, _, rfl⟩
  all_goals
    cases h
    exact .inr ⟨_, rfl⟩

/-- No operation writes a `CFG` field (10_state.md R29). -/
theorem exec_cfg {i : Instr} {s t : State} (h : exec i s = .next t) : t.cfg = s.cfg := by
  obtain ⟨c, st, buf, r, hrun⟩ := exec_next i s
  cases (hrun s.pending s.stream s.results).symm.trans h
  rfl

end Sys2Proof.Machine
end

section
/-! SUPPORT. The reader invariant of 10_state.md R33, with `CFG_VALID`, under the operations on the state. -/

namespace Sys2Proof.Machine

open Sys2Proof

/-- A valid configuration leaves room for a delimiter pair, and so for an SOT in the buffer (00_scope.md R9). -/
theorem two_le_rxCap {cfg : Cfg} (h : cfgValid cfg = true) : 2 ≤ cfg.rxCap := by
  obtain ⟨-, -, -, hcap⟩ := (cfgValid_iff cfg).1 h
  unfold defaultRxCap at hcap
  omega

theorem stateInv_resetWith {cfg : Cfg} (h : cfgValid cfg = true) : StateInv (State.resetWith cfg) :=
  ⟨h, by simp [ReaderInv]⟩

/-- The invariant does not speak of the host's end of the interface. -/
theorem StateInv.withHost {s : State} (h : StateInv s) (p : List HostAction) (bs : List Byte) (rs : List Result) :
    StateInv { s with pending := p, stream := bs, results := rs } := h

theorem StateInv.answer {s : State} (h : StateInv s) (r : Result) : StateInv (s.answer r) :=
  h.withHost s.pending s.stream (s.results ++ [r])

theorem StateInv.setCrc {s : State} (h : StateInv s) (c : U16) : StateInv (s.setCrc c) := h

theorem StateInv.clearReader {s : State} (h : StateInv s) : StateInv s.clearReader :=
  ⟨h.1, by simp [ReaderInv]⟩

/-- In a frame, the invariant says that the buffer is an SOT and an interior with no delimiter, and that there is room
for the EOT (10_state.md R33). -/
theorem readerInv_inFrame_iff {s : State} (hs : s.rxState = .inFrame) : ReaderInv s ↔
    ∃ interior, s.rxBuf = s.cfg.sot :: interior ∧ interior.length + 2 ≤ s.cfg.rxCap ∧
      ∀ b ∈ interior, b ≠ s.cfg.sot ∧ b ≠ s.cfg.eot := by
  constructor
  · rintro ⟨-, hframe⟩
    obtain ⟨-, hlength, hhead, hclean⟩ := hframe hs
    obtain ⟨interior, hbuf⟩ := List.head?_eq_some_iff.1 hhead
    rw [hbuf, List.length_cons] at hlength
    exact ⟨interior, hbuf, by omega, by simpa [hbuf] using hclean⟩
  · rintro ⟨interior, hbuf, hlength, hclean⟩
    refine ⟨by simp [hs], fun _ => ?_⟩
    rw [hbuf, List.length_cons]
    exact ⟨by omega, by omega, rfl, hclean⟩

/-- An SOT begins a buffer that meets the invariant, in any reader state. -/
theorem StateInv.startFrame {s : State} (h : StateInv s) : StateInv (s.setReader .inFrame [s.cfg.sot]) :=
  ⟨h.1, (readerInv_inFrame_iff rfl).2 ⟨[], rfl, two_le_rxCap h.1, by simp⟩⟩

/-- A byte that is no delimiter, and leaves room for the EOT, keeps the invariant of a frame. -/
theorem StateInv.extendFrame {s : State} (h : StateInv s) (hs : s.rxState = .inFrame) {b : Byte}
    (hsot : b ≠ s.cfg.sot) (heot : b ≠ s.cfg.eot) (hroom : s.rxBuf.length + 1 < s.cfg.rxCap) :
    StateInv (s.setReader .inFrame (s.rxBuf ++ [b])) := by
  obtain ⟨interior, hbuf, -, hclean⟩ := (readerInv_inFrame_iff hs).1 h.2
  rw [hbuf, List.length_cons] at hroom
  refine ⟨h.1, (readerInv_inFrame_iff rfl).2 ⟨interior ++ [b], by simp [hbuf], by simp; omega, ?_⟩⟩
  simpa [or_imp, forall_and, hsot, heot] using hclean

/-- RX_BYTE keeps the invariant, by its five cases (43_reader.md R171). -/
theorem StateInv.rxByte {s : State} (h : StateInv s) (b : Byte) : StateInv (rxByte b s).1 := by
  obtain ⟨-, -, hrun⟩ | ⟨rfl, hrun⟩ | ⟨-, -, -, hrun⟩ | ⟨-, -, -, -, hrun⟩ | ⟨hs, hsot, heot, hroom, hrun⟩ :=
    rxByte_cases b s <;> rw [hrun]
  · exact h
  · exact h.startFrame
  · exact h.clearReader
  · exact h.clearReader
  · exact h.extendFrame hs hsot heot hroom

theorem StateInv.rxFeed {s : State} (h : StateInv s) (chunk : List Byte) : StateInv (rxFeed chunk s).1 := by
  induction chunk generalizing s with
  | nil => exact h
  | cons b chunk ih => exact ih (h.rxByte b)

/-- Every operation keeps the invariant: its unit leaves the reader alone, puts bytes through it, or clears it. -/
theorem StateInv.exec {i : Instr} {s t : State} (h : StateInv s) (hrun : exec i s = .next t) : StateInv t := by
  cases i with
  | crcInit | crcByte | checksum | verify =>
    obtain ⟨c, r, rfl⟩ := exec_checksumEngine (by simp) hrun
    exact (h.setCrc c).answer r
  | stuff | unstuff | encode | decode =>
    obtain ⟨r, rfl⟩ := exec_stufferOrCodec (by simp) hrun
    exact h.answer r
  | rxByte | rxPush | rxTimeout | rxFlush =>
    obtain ⟨chunk, r, rfl⟩ | ⟨r, rfl⟩ := exec_transportReader (by simp) hrun
    · exact (h.rxFeed chunk).answer r
    · exact h.clearReader.answer r

end Sys2Proof.Machine
end

section
/-! PROOFS. The state (10_state.md): who writes what, what results depend on, and the invariant of R33. -/

namespace Sys2Proof.Machine

open Sys2Proof

/-- Settles O23: by the units of the operations, and by the kinds of step. -/
theorem invariantIsKeptByEveryStep : Obligations.InvariantIsKeptByEveryStep := by
  refine ⟨fun i s t h hrun => h.exec hrun, fun s t h hstep => ?_⟩
  obtain ⟨i, p, bs, hrun⟩ | ⟨p, bs, rfl⟩ | rfl | ⟨cfg, rest, -, hvalid, rfl⟩ := step_next_cases hstep
  · exact (h.withHost p bs s.results).exec hrun
  · exact h.withHost p bs _
  · exact h
  · exact (stateInv_resetWith hvalid).withHost rest s.stream s.results

/-- Settles O17: states that agree on `(CFG, S)` are one state with two host ends, of which `exec_next` speaks. -/
theorem earlierResultsHaveNoInfluence : Obligations.EarlierResultsHaveNoInfluence := by
  rintro i s ⟨_, _, _, _, pending, stream, results⟩ rfl rfl rfl rfl
  obtain ⟨c, st, buf, r, hrun⟩ := exec_next i s
  exact ⟨_, _, r, hrun s.pending s.stream s.results, hrun pending stream results, rfl, rfl, rfl, rfl, rfl, rfl⟩

/-- Settles O21: by the kinds of step, of which only a reset writes `CFG`. -/
theorem onlyResetChangesTheConfiguration : Obligations.OnlyResetChangesTheConfiguration := by
  refine ⟨fun i s t hrun => exec_cfg hrun, fun s t hstep => ?_⟩
  obtain ⟨i, p, bs, hrun⟩ | ⟨p, bs, rfl⟩ | rfl | ⟨cfg, rest, hpending, -, rfl⟩ := step_next_cases hstep
  · have hcfg := exec_cfg hrun
    exact .inl hcfg
  · exact .inl rfl
  · exact .inl rfl
  · exact .inr ⟨cfg, rest, hpending, rfl⟩

/-- Settles O58: the Transport Reader writes its own state and buffer only, on a chunk as on a byte. -/
theorem readerOperationsFrame : Obligations.ReaderOperationsFrame := by
  intro i s t hi hrun
  obtain ⟨chunk, r, rfl⟩ | ⟨r, rfl⟩ := exec_transportReader hi hrun
  · obtain ⟨st, buf, hfeed⟩ := rxFeed_state chunk s
    simp [hfeed]
  · simp

/-- Settles O22: the reset values meet the invariant, and the default configuration is valid. -/
theorem invariantHoldsAtReset : Obligations.InvariantHoldsAtReset :=
  ⟨fun _ hvalid => stateInv_resetWith hvalid, stateInv_resetWith (by decide)⟩

/-- Settles O33: the Checksum Engine writes `S.crc` only. -/
theorem checksumOperationsFrame : Obligations.ChecksumOperationsFrame := by
  intro i s t hi hrun
  obtain ⟨c, r, rfl⟩ := exec_checksumEngine hi hrun
  simp

end Sys2Proof.Machine
end

section
/-! SUPPORT. The serialized form read back (30_encoding.md R63), and the command stream under an operation (20_memory.md
R52). -/

namespace Sys2Proof

/-- The decoder reads back a serialized operation, by the shape of its operand (30_encoding.md R62, R63, R66). -/
theorem decode_encode {i : Instr} (h : i.wf = true) (rest : List Byte) :
    decode (encode i ++ rest) = .instr i rest := by
  cases i with
  | crcInit | rxTimeout | rxFlush | crcByte | rxByte =>
    simp [encode, decode, selected_commandWord, operandOf, operandBytes]
  | checksum x | verify x | stuff x | unstuff x | decode x | rxPush x | encode dest src cmd x =>
    simp [encode, decode, selected_commandWord, operandOf, operandBytes, takeSeq_lenSeq h]

end Sys2Proof

namespace Sys2Proof.Machine

open Sys2Proof

/-- The host's end of the interface is not the operation's to write (20_memory.md R52). -/
theorem exec_host {i : Instr} {s t : State} (h : exec i s = .next t) :
    t.pending = s.pending ∧ t.stream = s.stream := by
  obtain ⟨c, st, buf, r, hrun⟩ := exec_next i s
  cases (hrun s.pending s.stream s.results).symm.trans h
  exact ⟨rfl, rfl⟩

/-- The command stream is not the operation's to read: with another one outstanding, it does the same. -/
theorem exec_setStream {i : Instr} {s t : State} (h : exec i s = .next t) (bs : List Byte) :
    exec i (s.setStream bs) = .next (t.setStream bs) := by
  obtain ⟨c, st, buf, r, hrun⟩ := exec_next i s
  cases (hrun s.pending s.stream s.results).symm.trans h
  exact hrun s.pending bs s.results

/-- Every operation completes (30_encoding.md R60). -/
theorem exec_completes (i : Instr) (s : State) : ∃ t, exec i s = .next t := by
  obtain ⟨c, st, buf, r, hrun⟩ := exec_next i s
  exact ⟨_, hrun s.pending s.stream s.results⟩

/-- With no action queued, a step runs the operation whose serialized form the stream begins with, and takes those bytes
(30_encoding.md R63). -/
theorem step_of_stream_encode {s : State} {i : Instr} {rest : List Byte} (hi : i.wf = true) (hp : s.pending = [])
    (hs : s.stream = encode i ++ rest) : step s = exec i (s.setStream rest) :=
  step_of_stream_instr hp (hs ▸ decode_encode hi rest)

/-- Running serialized operations, a step each, runs them one after another (20_memory.md R49): each step takes its own
operation's bytes, and no operation sees the bytes behind them. -/
theorem runSteps_serialized (is : List Instr) (s : State) (tail : List Byte) (hwf : ∀ i ∈ is, i.wf = true)
    (hp : s.pending = []) (hs : s.stream = is.flatMap encode ++ tail) :
    runSteps is.length s = execAll is (s.setStream tail) := by
  induction is generalizing s with
  | nil =>
    obtain rfl : s.stream = tail := hs
    rfl
  | cons i is ih =>
    obtain ⟨hi, his⟩ := List.forall_mem_cons.1 hwf
    rw [List.flatMap_cons, List.append_assoc] at hs
    obtain ⟨t, hrun⟩ := exec_completes i (s.setStream (is.flatMap encode ++ tail))
    obtain ⟨hpending, hstream⟩ := exec_host hrun
    have hfirst : step s = .next t := (step_of_stream_encode hi hp hs).trans hrun
    have hseen : exec i (s.setStream tail) = .next (t.setStream tail) := exec_setStream hrun tail
    simp only [List.length_cons, runSteps, execAll, hfirst, hseen]
    exact ih t his (hpending.trans hp) hstream

end Sys2Proof.Machine
end

section
/-! PROOFS. Data, byte order and ordering (20_memory.md): the order of operations, the host's commands apart from the
data, and which operations are repeatable or idempotent. -/

namespace Sys2Proof.Machine

open Sys2Proof

/-- Settles O10: by induction on the operations, each read back from the stream and run without its bytes. -/
theorem serializedProgramRunsInOrder : Obligations.SerializedProgramRunsInOrder :=
  runSteps_serialized

/-- Settles O11: the host's end is outside what any operation writes. -/
theorem operationsLeaveHostCommandsAlone : Obligations.OperationsLeaveHostCommandsAlone :=
  fun _ _ _ => exec_host

/-- Settles O49: the result is computed from the operand and the configuration alone. -/
theorem stufferAndCodecArePure : Obligations.StufferAndCodecArePure := by
  intro i hi cfg
  obtain ⟨x, rfl⟩ | ⟨y, rfl⟩ | ⟨dest, src, cmd, payload, rfl⟩ | ⟨w, rfl⟩ := hi
  · exact ⟨⟨.ok, .seq (stuff cfg x)⟩, by rintro s rfl; exact returnOk_eq _ s⟩
  · exact ⟨resultOf ((unstuff cfg y).map .seq), by rintro s rfl; exact returnOrRaise_next _ s⟩
  · exact ⟨resultOf ((encodeFrame cfg dest src cmd payload).map .seq), by rintro s rfl; exact returnOrRaise_next _ s⟩
  · exact ⟨resultOf ((decodeFrame cfg w).map .frame), by rintro s rfl; exact returnOrRaise_next _ s⟩

/-- Settles O59: each writes and returns values that do not depend on the state it writes, so that a second time finds
them there already. -/
theorem idempotentOperations : Obligations.IdempotentOperations := by
  intro i s hi
  obtain rfl | rfl | rfl | ⟨x, rfl⟩ | ⟨x, rfl⟩ := hi
  · exact ⟨(s.setCrc 0x0000).answer ⟨.ok, .u16 0x0000⟩, _, rfl, rfl, rfl⟩
  · exact ⟨s.clearReader.answer ⟨.timeout, .none⟩, _, rfl, rfl, rfl⟩
  · exact ⟨s.clearReader.answer ⟨.ok, .none⟩, _, rfl, rfl, rfl⟩
  · exact ⟨(s.setCrc (crcFold 0x0000 x)).answer ⟨.ok, .u16 (crcFold 0x0000 x)⟩, _, rfl, rfl, rfl⟩
  · exact ⟨(s.setCrc (crcFold 0x0000 x)).answer ⟨.ok, .bool (verifies x)⟩, _, rfl, rfl, rfl⟩

end Sys2Proof.Machine
end

section
/-! SUPPORT. The opcode map inverted, and the two forms of a command that rest on it: a transaction read as an operation
(30_encoding.md R60, R62, R66) and a serialized stream read as a transaction (R63, R67, R68). -/

namespace Sys2Proof

/-! ## The opcode map -/

/-- What a command word's row of R66 selects belongs to that word: every operation built from it is, as a transaction,
the word and the operand it was built with; and where nothing is selected, the byte is none of the twelve (R67). -/
def Selected.BelongsTo (cw : Byte) : Selected → Prop
  | .illegal => ¬ (0x01 ≤ cw ∧ cw ≤ 0x0C)
  | .none i => transactionOf i = ⟨cw, .none⟩
  | .byte mk => ∀ b, transactionOf (mk b) = ⟨cw, .byte b⟩
  | .seq mk => ∀ x, transactionOf (mk x) = ⟨cw, .seq x⟩
  | .frame mk => ∀ dest src cmd payload, transactionOf (mk dest src cmd payload) = ⟨cw, .frame dest src cmd payload⟩

/-- The map of R66, row by row. -/
theorem selected_belongsTo (cw : Byte) : (selected cw).BelongsTo cw := by
  obtain ⟨rfl, h⟩ | ⟨rfl, h⟩ | ⟨rfl, h⟩ | ⟨rfl, h⟩ | ⟨rfl, h⟩ | ⟨rfl, h⟩ | ⟨rfl, h⟩ | ⟨rfl, h⟩ | ⟨rfl, h⟩ | ⟨rfl, h⟩ |
    ⟨rfl, h⟩ | ⟨rfl, h⟩ | ⟨hcw, h⟩ := selected_cases cw <;> rw [h]
  on_goal 13 => exact hcw
  all_goals simp [Selected.BelongsTo, transactionOf, commandWord, operandOf]

theorem commandWord_mem_range (i : Instr) : 0x01 ≤ commandWord i ∧ commandWord i ≤ 0x0C := by
  cases i <;> simp [commandWord]

/-- A word that selects something is the command word of what it selects. -/
theorem exists_commandWord_of_selected {cw : Byte} (h : selected cw ≠ .illegal) : ∃ i, commandWord i = cw := by
  have hb := selected_belongsTo cw
  cases hs : selected cw <;> rw [hs] at hb
  case illegal => exact absurd hs h
  case none i => exact ⟨i, congrArg Transaction.cw hb⟩
  case byte mk => exact ⟨mk 0, congrArg Transaction.cw (hb 0)⟩
  case seq mk => exact ⟨mk [], congrArg Transaction.cw (hb [])⟩
  case frame mk => exact ⟨mk 0 0 0 [], congrArg Transaction.cw (hb 0 0 0 [])⟩

/-- The twelve legal bytes (30_encoding.md R68). -/
theorem selected_eq_illegal_iff (cw : Byte) : selected cw = .illegal ↔ ¬ (0x01 ≤ cw ∧ cw ≤ 0x0C) := by
  constructor
  · intro hs
    have hb := selected_belongsTo cw
    rwa [hs] at hb
  · intro hcw
    by_contra hs
    obtain ⟨i, rfl⟩ := exists_commandWord_of_selected hs
    exact hcw (commandWord_mem_range i)

/-- Every byte from 0x01 to 0x0C is the command word of an operation, and no other is (30_encoding.md R66, R68). -/
theorem exists_commandWord_eq_iff (cw : Byte) : (∃ i, commandWord i = cw) ↔ 0x01 ≤ cw ∧ cw ≤ 0x0C := by
  constructor
  · rintro ⟨i, rfl⟩
    exact commandWord_mem_range i
  · intro hcw
    exact exists_commandWord_of_selected fun hs => (selected_eq_illegal_iff cw).1 hs hcw

/-- The fields of R61 that make a word illegal (30_encoding.md R67). -/
theorem illegal_fields_iff : ∀ cw : Byte,
    (opsel cw ∈ [0x0#4, 0xD#4, 0xE#4, 0xF#4] ∨ rsv cw ≠ 0) ↔ ¬ (0x01 ≤ cw ∧ cw ≤ 0x0C) := by
  decide

/-! ## Transactions -/

/-- A transaction read as an operation is that operation's transaction: one operand shape for each selection. -/
theorem eq_transactionOf {t : Transaction} {i : Instr} (h : decodeTransaction t = .instr i) : t = transactionOf i := by
  obtain ⟨cw, o⟩ := t
  have hb := selected_belongsTo cw
  cases hs : selected cw <;> cases o <;> simp only [decodeTransaction, hs, reduceCtorEq] at h
  all_goals
    cases h
    rw [hs] at hb
  case none.none => exact hb.symm
  case byte.byte b => exact (hb b).symm
  case seq.seq x => exact (hb x).symm
  case frame.frame dest src cmd payload => exact (hb dest src cmd payload).symm

theorem decodeTransaction_transactionOf (i : Instr) : decodeTransaction (transactionOf i) = .instr i := by
  obtain ⟨-, -, -, -, hread⟩ :=
    Laws.CommandWord.of_command_word i (by cases i <;> simp [commandWord, rsv, opsel])
  exact hread

theorem decodeTransaction_of_illegal {cw : Byte} (h : selected cw = .illegal) (o : Operand) :
    decodeTransaction ⟨cw, o⟩ = .illegal := by
  simp only [decodeTransaction, h]

/-! ## The serialized form -/

/-- An operand the serialized form can express (30_encoding.md R63). -/
def Operand.serializable : Operand → Bool
  | .none => true
  | .byte _ => true
  | .seq x => serializableSeq x
  | .frame _ _ _ payload => serializableSeq payload

theorem wf_eq_serializable (i : Instr) : i.wf = (operandOf i).serializable := by
  cases i <;> rfl

/-- A stream read as an operation is a transaction of that operation, its operand in serialized form, and the rest. -/
theorem eq_serialized_of_decode {bs rest : List Byte} {i : Instr} (h : decode bs = .instr i rest) :
    ∃ cw o, bs = cw :: operandBytes o ++ rest ∧ o.serializable = true ∧ decodeTransaction ⟨cw, o⟩ = .instr i := by
  match bs with
  | [] => simp [decode] at h
  | cw :: bs =>
    cases hs : selected cw <;> simp only [decode, hs, reduceCtorEq] at h
    case none j =>
      cases h
      exact ⟨cw, .none, rfl, rfl, by simp only [decodeTransaction, hs]⟩
    case byte mk =>
      match bs with
      | [] => simp at h
      | b :: bs =>
        cases h
        exact ⟨cw, .byte b, rfl, rfl, by simp only [decodeTransaction, hs]⟩
    case seq mk =>
      match ht : takeSeq bs with
      | none => simp [ht] at h
      | some (x, bs') =>
        simp only [ht] at h
        cases h
        obtain ⟨rfl, hx⟩ := eq_of_takeSeq ht
        exact ⟨cw, .seq x, rfl, hx, by simp only [decodeTransaction, hs]⟩
    case frame mk =>
      match bs with
      | [] | [_] | [_, _] => simp at h
      | dest :: src :: cmd :: bs =>
        match ht : takeSeq bs with
        | none => simp [ht] at h
        | some (payload, bs') =>
          simp only [ht] at h
          cases h
          obtain ⟨rfl, hx⟩ := eq_of_takeSeq ht
          exact ⟨cw, .frame dest src cmd payload, rfl, hx, by simp only [decodeTransaction, hs]⟩

/-- A stream read as an operation begins with that operation's one serialized form (30_encoding.md R63, R68). -/
theorem eq_encode_of_decode {bs rest : List Byte} {i : Instr} (h : decode bs = .instr i rest) :
    bs = encode i ++ rest ∧ i.wf = true := by
  obtain ⟨cw, o, rfl, ho, hd⟩ := eq_serialized_of_decode h
  obtain ⟨rfl, rfl⟩ := Transaction.mk.inj (eq_transactionOf hd)
  exact ⟨rfl, (wf_eq_serializable i).trans ho⟩

theorem decode_of_illegal {cw : Byte} (h : selected cw = .illegal) (rest : List Byte) :
    decode (cw :: rest) = .illegal cw rest := by
  simp only [decode, h]

/-- The decoder calls a command word illegal exactly where it selects nothing (30_encoding.md R67). -/
theorem decode_eq_illegal_iff (cw : Byte) (rest : List Byte) :
    decode (cw :: rest) = .illegal cw rest ↔ selected cw = .illegal := by
  refine ⟨fun h => ?_, fun h => decode_of_illegal h rest⟩
  cases hs : selected cw <;> simp only [decode, hs] at h
  case illegal => rfl
  case none => cases h
  case byte => split at h <;> cases h
  case seq => split at h <;> cases h
  case frame =>
    split at h
    · split at h <;> cases h
    · cases h

end Sys2Proof
end

section
/-! SUPPORT. The result an operation returns: its code is one listed for the operation (30_encoding.md R70,
60_exceptions.md R201), its value is none on an error and has the operation's shape otherwise (30_encoding.md R65,
R66). -/

namespace Sys2Proof.Machine

open Sys2Proof

/-! ## The errors of the units -/

theorem encodeFrame_error {cfg : Cfg} {dest src cmd : Byte} {payload : List Byte} {rc : ResultCode}
    (h : encodeFrame cfg dest src cmd payload = .error rc) : rc = .tooLong := by
  unfold encodeFrame at h
  split at h <;> cases h
  rfl

theorem interiorOf_error {cfg : Cfg} {w : List Byte} {rc : ResultCode} (h : interiorOf cfg w = .error rc) :
    rc = .missingSot ∨ rc = .missingEot ∨ rc = .misplacedDelimiter := by
  simp only [interiorOf] at h
  split_ifs at h <;> cases h <;> simp

theorem fieldsOf_error {cfg : Cfg} {u : List Byte} {rc : ResultCode} (h : fieldsOf cfg u = .error rc) :
    rc = .short ∨ rc = .tooLong := by
  simp only [fieldsOf] at h
  split_ifs at h <;> cases h <;> simp

theorem frameOfRegion_error {cfg : Cfg} {u : List Byte} {rc : ResultCode} (h : frameOfRegion cfg u = .error rc) :
    rc = .short ∨ rc = .checksum ∨ rc = .tooLong := by
  unfold frameOfRegion at h
  split_ifs at h
  · cases h
    simp
  · cases h
    simp
  · obtain rfl | rfl := fieldsOf_error h <;> simp

/-- DECODE raises what its three parts raise (42_frame_codec.md R147, R148). -/
theorem decodeFrame_error {cfg : Cfg} {w : List Byte} {rc : ResultCode} (h : decodeFrame cfg w = .error rc) :
    rc ∈ codesOf (.decode w) ∧ rc ≠ .ok := by
  unfold decodeFrame at h
  split at h
  next rc' hi =>
    cases h
    obtain rfl | rfl | rfl := interiorOf_error hi <;> simp [codesOf]
  next interior hi =>
    split at h
    next rc' hu =>
      cases h
      obtain rfl | rfl | rfl := unstuff_error hu <;> simp [codesOf]
    next u hu => obtain rfl | rfl | rfl := frameOfRegion_error h <;> simp [codesOf]

/-- RX_BYTE raises OVERFLOW only (43_reader.md R171). -/
theorem rxByte_error {b : Byte} {s : State} {rc : ResultCode} (h : (rxByte b s).2 = .error rc) : rc = .overflow := by
  obtain ⟨-, -, hrun⟩ | ⟨-, hrun⟩ | ⟨-, -, -, hrun⟩ | ⟨-, -, -, -, hrun⟩ | ⟨-, -, -, -, hrun⟩ := rxByte_cases b s <;>
    rw [hrun] at h <;> cases h
  rfl

/-- The error events of a chunk are those of its bytes (43_reader.md R173). -/
theorem rxFeed_error {chunk : List Byte} {s : State} {rc : ResultCode} (h : .error rc ∈ (rxFeed chunk s).2) :
    rc = .overflow := by
  induction chunk generalizing s with
  | nil => simp at h
  | cons b chunk ih =>
    rw [rxFeed_cons, List.mem_append] at h
    obtain h | h := h
    · match ha : (rxByte b s).2 with
      | .error rc' =>
        obtain rfl : rc = rc' := by simpa [ha, eventsOf] using h
        exact rxByte_error ha
      | .ok (some c) => simp [ha, eventsOf] at h
      | .ok none => simp [ha, eventsOf] at h
    · exact ih h

/-! ## The result by operation -/

/-- The result each operation returns, from `(CFG, S)` and its operand. -/
def resultReturned (i : Instr) (s : State) : Result :=
  match i with
  | .crcInit => ⟨.ok, .u16 0x0000⟩
  | .crcByte b => ⟨.ok, .u16 (crcStep s.crc b)⟩
  | .checksum x => ⟨.ok, .u16 (crcFold 0x0000 x)⟩
  | .verify x => ⟨.ok, .bool (verifies x)⟩
  | .stuff x => ⟨.ok, .seq (stuff s.cfg x)⟩
  | .unstuff y => resultOf ((unstuff s.cfg y).map .seq)
  | .encode dest src cmd payload => resultOf ((encodeFrame s.cfg dest src cmd payload).map .seq)
  | .decode w => resultOf ((decodeFrame s.cfg w).map .frame)
  | .rxByte b => resultOf ((rxByte b s).2.map .cand)
  | .rxPush chunk => ⟨.ok, .events (rxFeed chunk s).2⟩
  | .rxTimeout => ⟨.timeout, .none⟩
  | .rxFlush => ⟨.ok, .none⟩

/-- It is what `exec` adds to the results. -/
theorem exec_results (i : Instr) (s : State) :
    ∃ t, exec i s = .next t ∧ t.results = s.results ++ [resultReturned i s] := by
  cases i with
  | crcInit | crcByte | checksum | verify | stuff | rxTimeout | rxFlush => exact ⟨_, rfl, rfl⟩
  | unstuff | encode | decode => exact ⟨_, returnOrRaise_next _ s, rfl⟩
  | rxByte b =>
    obtain ⟨st, buf, hstate⟩ := rxByte_state b s
    refine ⟨_, returnOrRaise_next _ (rxByte b s).1, ?_⟩
    rw [hstate]
    rfl
  | rxPush chunk =>
    obtain ⟨st, buf, hstate⟩ := rxFeed_state chunk s
    refine ⟨_, rfl, ?_⟩
    rw [hstate]
    rfl

theorem eq_resultReturned {i : Instr} {s t : State} {r : Result} (h : exec i s = .next t)
    (hr : t.results = s.results ++ [r]) : r = resultReturned i s := by
  obtain ⟨u, hu, hresults⟩ := exec_results i s
  cases h.symm.trans hu
  simpa using hr.symm.trans hresults

/-! ## What a result of an operation is -/

/-- The rules on the result of an operation: its code, its value on an error and otherwise, and the error events of
RX_PUSH. -/
structure Result.Fits (r : Result) (i : Instr) : Prop where
  code : r.rc ∈ codesOf i
  none_of_error : r.rc ≠ .ok → r.value = .none
  shape_of_ok : r.rc = .ok → shapeOfValue r.value = shapeReturned i
  overflow_of_event : ∀ es rc, r.value = .events es → .error rc ∈ es → rc = .overflow

/-- An operation that computes a value or raises: its errors are listed for it, and its values have its shape. -/
theorem fits_resultOf {α : Type} {i : Instr} (e : Except ResultCode α) (f : α → Value) (hok : .ok ∈ codesOf i)
    (herror : ∀ rc, e = .error rc → rc ∈ codesOf i ∧ rc ≠ .ok) (hshape : ∀ a, shapeOfValue (f a) = shapeReturned i)
    (hevents : shapeReturned i ≠ .events) : (resultOf (e.map f)).Fits i := by
  cases e with
  | ok a =>
    refine ⟨hok, fun hne => absurd rfl hne, fun _ => hshape a, fun es rc hes => ?_⟩
    have hvalue : f a = .events es := hes
    exact absurd ((hshape a).symm.trans (congrArg shapeOfValue hvalue)) hevents
  | error rc =>
    obtain ⟨hmem, hne⟩ := herror rc rfl
    exact ⟨hmem, fun _ => rfl, fun h => absurd h hne, fun es rc' hes => nomatch hes⟩

/-- Every operation's result keeps the rules, in every state. -/
theorem resultReturned_fits (i : Instr) (s : State) : (resultReturned i s).Fits i := by
  cases i with
  | crcInit | crcByte | checksum | verify | stuff | rxTimeout | rxFlush =>
    constructor <;> simp [resultReturned, codesOf, shapeOfValue, shapeReturned]
  | unstuff y =>
    refine fits_resultOf _ _ (by simp [codesOf]) (fun rc h => ?_) (fun _ => rfl) (by simp [shapeReturned])
    obtain rfl | rfl | rfl := unstuff_error h <;> simp [codesOf]
  | encode dest src cmd payload =>
    refine fits_resultOf _ _ (by simp [codesOf]) (fun rc h => ?_) (fun _ => rfl) (by simp [shapeReturned])
    obtain rfl := encodeFrame_error h
    simp [codesOf]
  | decode w =>
    exact fits_resultOf _ _ (by simp [codesOf]) (fun _ => decodeFrame_error) (fun _ => rfl) (by simp [shapeReturned])
  | rxByte b =>
    refine fits_resultOf _ _ (by simp [codesOf]) (fun rc h => ?_) (fun _ => rfl) (by simp [shapeReturned])
    obtain rfl := rxByte_error h
    simp [codesOf]
  | rxPush chunk =>
    refine ⟨by simp [resultReturned, codesOf], fun hne => absurd rfl hne, fun _ => rfl, fun es rc hes hmem => ?_⟩
    obtain rfl : (rxFeed chunk s).2 = es := Value.events.inj hes
    exact rxFeed_error hmem

theorem fits_of_exec {i : Instr} {s t : State} {r : Result} (h : exec i s = .next t)
    (hr : t.results = s.results ++ [r]) : r.Fits i :=
  eq_resultReturned h hr ▸ resultReturned_fits i s

end Sys2Proof.Machine
end

section
/-! SUPPORT. The serialized form of results (30_encoding.md R65): the bytes of each part, and that each part is read off
the front of a stream in one way only. -/

namespace Sys2Proof

/-! ## Lengths and sequences -/

theorem u16Bytes_append_inj {c d : U16} {a b : List Byte} (h : u16Bytes c ++ a = u16Bytes d ++ b) : c = d ∧ a = b := by
  obtain ⟨hhi, hlo, hrest⟩ : hiByte c = hiByte d ∧ loByte c = loByte d ∧ a = b := by simpa [u16Bytes] using h
  exact ⟨by rw [← joinBytes_hiByte_loByte c, hhi, hlo, joinBytes_hiByte_loByte], hrest⟩

theorem len16_append_inj {m n : Nat} {a b : List Byte} (hm : m ≤ 0xFFFF) (hn : n ≤ 0xFFFF)
    (h : len16 m ++ a = len16 n ++ b) : m = n ∧ a = b := by
  obtain ⟨hword, hrest⟩ := u16Bytes_append_inj h
  exact ⟨by rw [← toNat_ofNat_of_serializable hm, hword, toNat_ofNat_of_serializable hn], hrest⟩

/-- `takeSeq` reads a sequence in serialized form, so there is one to read. -/
theorem lenSeq_append_inj {x y a b : List Byte} (hx : serializableSeq x = true) (hy : serializableSeq y = true)
    (h : lenSeq x ++ a = lenSeq y ++ b) : x = y ∧ a = b := by
  have hread : some (x, a) = some (y, b) := by rw [← takeSeq_lenSeq hx a, h, takeSeq_lenSeq hy b]
  simpa using hread

end Sys2Proof

namespace Sys2Proof.Machine

open Sys2Proof

/-! ## Result codes -/

/-- No two result codes have one byte (30_encoding.md R70). -/
theorem resultByte_injective {a b : ResultCode} (h : resultByte a = resultByte b) : a = b := by
  revert h
  cases a <;> cases b <;> simp [resultByte]

/-! ## Sequences and events -/

theorem serializeSeq_of_length {x : List Byte} (h : x.length ≤ 0xFFFF) :
    serializeSeq x = some (len16 x.length ++ x) := by
  simp [serializeSeq, serializableSeq, h, lenSeq]

theorem serializeSeq_eq_some {x xs : List Byte} (h : serializeSeq x = some xs) :
    serializableSeq x = true ∧ xs = lenSeq x := by
  unfold serializeSeq at h
  split at h
  · next hx => exact ⟨hx, (Option.some.inj h).symm⟩
  · cases h

theorem serializeSeq_append_inj {x y xs ys a b : List Byte} (hx : serializeSeq x = some xs)
    (hy : serializeSeq y = some ys) (h : xs ++ a = ys ++ b) : x = y ∧ a = b := by
  obtain ⟨hxs, rfl⟩ := serializeSeq_eq_some hx
  obtain ⟨hys, rfl⟩ := serializeSeq_eq_some hy
  exact lenSeq_append_inj hxs hys h

/-- The bytes of one event (30_encoding.md R65). -/
def eventBytes : Event → List Byte
  | .candidate c => 0x00 :: len16 c.length ++ c
  | .error rc => [resultByte rc]

theorem serializeEvent_eq {e : Event} (h : ∀ c, e = .candidate c → c.length ≤ 0xFFFF) :
    serializeEvent e = some (eventBytes e) := by
  cases e with
  | candidate c => simp [serializeEvent, serializeSeq_of_length (h c rfl), eventBytes]
  | error rc => rfl

theorem serializeEvents_eq {es : List Event} (h : ∀ c, .candidate c ∈ es → c.length ≤ 0xFFFF) :
    serializeEvents es = some (es.flatMap eventBytes) := by
  induction es with
  | nil => rfl
  | cons e es ih =>
    have hhead : serializeEvent e = some (eventBytes e) := serializeEvent_eq fun c hc => h c (by simp [hc])
    have htail : serializeEvents es = some (es.flatMap eventBytes) := ih fun c hc => h c (by simp [hc])
    simp [serializeEvents, hhead, htail]

theorem serializeEvents_cons_eq_some {e : Event} {es : List Event} {xs : List Byte}
    (h : serializeEvents (e :: es) = some xs) :
    ∃ y ys, serializeEvent e = some y ∧ serializeEvents es = some ys ∧ xs = y ++ ys := by
  unfold serializeEvents at h
  split at h
  next y ys hy hys => exact ⟨y, ys, hy, hys, (Option.some.inj h).symm⟩
  next => cases h

/-- Events are told apart by their bytes: an error's byte is not the 0x00 of a candidate. -/
theorem serializeEvent_append_inj {e f : Event} {x y a b : List Byte} (he : e ≠ .error .ok) (hf : f ≠ .error .ok)
    (hx : serializeEvent e = some x) (hy : serializeEvent f = some y) (h : x ++ a = y ++ b) : e = f ∧ a = b := by
  cases e with
  | candidate c =>
    obtain ⟨cs, hc, rfl⟩ := Option.map_eq_some_iff.1 hx
    cases f with
    | candidate d =>
      obtain ⟨ds, hd, rfl⟩ := Option.map_eq_some_iff.1 hy
      obtain ⟨rfl, hrest⟩ := serializeSeq_append_inj hc hd (List.cons.inj h).2
      exact ⟨rfl, hrest⟩
    | error rc =>
      cases hy
      obtain rfl : .ok = rc := resultByte_injective (List.cons.inj h).1
      exact absurd rfl hf
  | error rc =>
    cases hx
    cases f with
    | candidate d =>
      obtain ⟨ds, hd, rfl⟩ := Option.map_eq_some_iff.1 hy
      obtain rfl : rc = .ok := resultByte_injective (List.cons.inj h).1
      exact absurd rfl he
    | error rc' =>
      cases hy
      obtain ⟨hbyte, hrest⟩ := List.cons.inj h
      exact ⟨congrArg Event.error (resultByte_injective hbyte), hrest⟩

/-- As many events, read one after another. -/
theorem serializeEvents_append_inj {es fs : List Event} {xs ys a b : List Byte} (hlen : es.length = fs.length)
    (he : .error .ok ∉ es) (hf : .error .ok ∉ fs) (hx : serializeEvents es = some xs)
    (hy : serializeEvents fs = some ys) (h : xs ++ a = ys ++ b) : es = fs ∧ a = b := by
  induction es generalizing fs xs ys with
  | nil =>
    obtain rfl : fs = [] := List.eq_nil_of_length_eq_zero hlen.symm
    cases hx
    cases hy
    exact ⟨rfl, h⟩
  | cons e es ih =>
    match fs with
    | f :: fs =>
      obtain ⟨x, xs, hxe, hxs, rfl⟩ := serializeEvents_cons_eq_some hx
      obtain ⟨y, ys, hyf, hys, rfl⟩ := serializeEvents_cons_eq_some hy
      simp only [List.mem_cons, not_or] at he hf
      rw [List.append_assoc, List.append_assoc] at h
      obtain ⟨rfl, h'⟩ := serializeEvent_append_inj (Ne.symm he.1) (Ne.symm hf.1) hxe hyf h
      obtain ⟨rfl, hrest⟩ := ih (Nat.succ.inj hlen) he.2 hf.2 hxs hys h'
      exact ⟨rfl, hrest⟩

/-! ## Values and results -/

theorem serializeValue_events_eq_some {es : List Event} {x : List Byte} (h : serializeValue (.events es) = some x) :
    es.length ≤ 0xFFFF ∧ ∃ xs, serializeEvents es = some xs ∧ x = len16 es.length ++ xs := by
  simp only [serializeValue] at h
  split at h
  · next hlen =>
    obtain ⟨xs, hxs, rfl⟩ := Option.map_eq_some_iff.1 h
    exact ⟨hlen, xs, hxs, rfl⟩
  · cases h

/-- Values of one shape are told apart by their bytes, events of code 0x00 aside. -/
theorem serializeValue_append_inj {v w : Value} {x y a b : List Byte} (hshape : shapeOfValue v = shapeOfValue w)
    (hv : ∀ es, v = .events es → .error .ok ∉ es) (hw : ∀ es, w = .events es → .error .ok ∉ es)
    (hx : serializeValue v = some x) (hy : serializeValue w = some y) (h : x ++ a = y ++ b) : v = w ∧ a = b := by
  cases v <;> cases w <;> simp only [shapeOfValue, reduceCtorEq] at hshape
  case none.none =>
    cases hx
    cases hy
    exact ⟨rfl, h⟩
  case u16.u16 c d =>
    cases hx
    cases hy
    obtain ⟨rfl, hrest⟩ := u16Bytes_append_inj h
    exact ⟨rfl, hrest⟩
  case bool.bool p q =>
    cases hx
    cases hy
    obtain ⟨hbyte, hrest⟩ := List.cons.inj h
    exact ⟨by revert hbyte; cases p <;> cases q <;> simp, hrest⟩
  case seq.seq s t =>
    obtain ⟨rfl, hrest⟩ := serializeSeq_append_inj hx hy h
    exact ⟨rfl, hrest⟩
  case frame.frame f g =>
    obtain ⟨ps, hps, rfl⟩ := Option.map_eq_some_iff.1 hx
    obtain ⟨qs, hqs, rfl⟩ := Option.map_eq_some_iff.1 hy
    simp only [List.cons_append, List.append_assoc, List.cons.injEq] at h
    obtain ⟨hdest, hsrc, hcmd, h⟩ := h
    obtain ⟨hpayload, h⟩ := serializeSeq_append_inj hps hqs h
    obtain ⟨hchecksum, hrest⟩ := u16Bytes_append_inj h
    obtain ⟨⟩ := f
    obtain ⟨⟩ := g
    simp_all
  case cand.cand c d =>
    match c, d with
    | .none, .none =>
      cases hx
      cases hy
      exact ⟨rfl, (List.cons.inj h).2⟩
    | .none, .some d =>
      cases hx
      obtain ⟨ds, -, rfl⟩ := Option.map_eq_some_iff.1 hy
      exact absurd (List.cons.inj h).1 (by decide)
    | .some c, .none =>
      cases hy
      obtain ⟨cs, -, rfl⟩ := Option.map_eq_some_iff.1 hx
      exact absurd (List.cons.inj h).1 (by decide)
    | .some c, .some d =>
      obtain ⟨cs, hc, rfl⟩ := Option.map_eq_some_iff.1 hx
      obtain ⟨ds, hd, rfl⟩ := Option.map_eq_some_iff.1 hy
      obtain ⟨rfl, hrest⟩ := serializeSeq_append_inj hc hd (List.cons.inj h).2
      exact ⟨rfl, hrest⟩
  case events.events es fs =>
    obtain ⟨hes, xs, hxs, rfl⟩ := serializeValue_events_eq_some hx
    obtain ⟨hfs, ys, hys, rfl⟩ := serializeValue_events_eq_some hy
    rw [List.append_assoc, List.append_assoc] at h
    obtain ⟨hlen, h⟩ := len16_append_inj hes hfs h
    obtain ⟨rfl, hrest⟩ := serializeEvents_append_inj hlen (hv es rfl) (hw fs rfl) hxs hys h
    exact ⟨rfl, hrest⟩

/-- Results of one operation that have one code have values of one shape. -/
theorem Result.Fits.shape_eq {i : Instr} {r r' : Result} (h : r.Fits i) (h' : r'.Fits i) (hrc : r.rc = r'.rc) :
    shapeOfValue r.value = shapeOfValue r'.value := by
  by_cases hok : r.rc = .ok
  · rw [h.shape_of_ok hok, h'.shape_of_ok (hrc ▸ hok)]
  · rw [h.none_of_error hok, h'.none_of_error (hrc ▸ hok)]

theorem Result.Fits.no_ok_event {i : Instr} {r : Result} (h : r.Fits i) (es : List Event) (hes : r.value = .events es) :
    .error .ok ∉ es :=
  fun hmem => nomatch h.overflow_of_event es .ok hes hmem

/-- Results of one operation are told apart by their bytes: the code first, and then the value of its shape. -/
theorem serializeResult_append_inj {i : Instr} {r r' : Result} {x y a b : List Byte} (hf : r.Fits i) (hf' : r'.Fits i)
    (hx : serializeResult r = some x) (hy : serializeResult r' = some y) (h : x ++ a = y ++ b) : r = r' ∧ a = b := by
  obtain ⟨xs, hxs, rfl⟩ := Option.map_eq_some_iff.1 hx
  obtain ⟨ys, hys, rfl⟩ := Option.map_eq_some_iff.1 hy
  obtain ⟨hbyte, h⟩ := List.cons.inj h
  have hrc : r.rc = r'.rc := resultByte_injective hbyte
  obtain ⟨hvalue, hrest⟩ :=
    serializeValue_append_inj (hf.shape_eq hf' hrc) hf.no_ok_event hf'.no_ok_event hxs hys h
  obtain ⟨rc, value⟩ := r
  obtain rfl : rc = r'.rc := hrc
  obtain rfl : value = r'.value := hvalue
  exact ⟨rfl, hrest⟩

end Sys2Proof.Machine
end

section
/-! SUPPORT. CRC_BYTE over a sequence (30_encoding.md R72), and an encoded frame on its way through the reader
(41_stuffer.md R122; 43_reader.md R171, R173). -/

namespace Sys2Proof.Machine

open Sys2Proof

/-! ## The incremental checksum -/

/-- CRC_SEQ folds the recurrence into `S.crc`, and adds results; nothing else is written. -/
theorem execAll_crcSeq (x : List Byte) (s : State) : ∃ rs,
    execAll (crcSeq x) s = .next { s with crc := crcFold s.crc x, results := s.results ++ rs } := by
  induction x generalizing s with
  | nil => exact ⟨[], by simp [crcSeq, execAll]⟩
  | cons b x ih =>
    obtain ⟨rs, hrs⟩ := ih ((s.setCrc (crcStep s.crc b)).answer ⟨.ok, .u16 (crcStep s.crc b)⟩)
    refine ⟨⟨.ok, .u16 (crcStep s.crc b)⟩ :: rs, ?_⟩
    have hfirst : execAll (crcSeq (b :: x)) s =
        execAll (crcSeq x) ((s.setCrc (crcStep s.crc b)).answer ⟨.ok, .u16 (crcStep s.crc b)⟩) := rfl
    rw [hfirst, hrs]
    simp [State.setCrc, State.answer]

/-! ## Delimiter safety -/

theorem reserved_of_sentinel {cfg : Cfg} {b : Byte} (h : b ∈ [cfg.sot, cfg.eot, cfg.xon, cfg.xoff]) :
    reserved cfg b = true := by
  rw [reserved_iff]
  simp only [List.mem_cons, List.not_mem_nil, or_false] at h ⊢
  tauto

/-- Stuffed bytes are SOE, an escape, or a byte that is not reserved: where no escape is one of the four other
sentinels, none of the bytes is (41_stuffer.md R122). -/
theorem stuff_avoids_sentinels {cfg : Cfg} (hvalid : cfgValid cfg = true)
    (hescape : ∀ r ∈ reservedSet cfg, r ||| 0x40 ∉ [cfg.sot, cfg.eot, cfg.xon, cfg.xoff]) (x : List Byte) :
    ∀ b ∈ stuff cfg x, b ∉ [cfg.sot, cfg.eot, cfg.xon, cfg.xoff] := by
  induction x with
  | nil => simp
  | cons a x ih =>
    intro b hb
    rw [stuff_cons, List.mem_append] at hb
    obtain hb | hb := hb
    · cases ha : reserved cfg a with
      | true =>
        obtain rfl | rfl : b = cfg.soe ∨ b = escapeByte a := by simpa [ha] using hb
        · obtain ⟨-, hsot, heot, hxon, hxoff⟩ := sentinels_ne hvalid
          simp [hsot, heot, hxon, hxoff]
        · exact hescape a ((reserved_iff cfg a).1 ha)
      | false =>
        obtain rfl : b = a := by simpa [ha] using hb
        intro hmem
        exact Bool.false_ne_true (ha.symm.trans (reserved_of_sentinel hmem))
    · exact ih b hb

/-- The escapes under `WF_ESC` have bit 6 set, and the sentinels have not; the default escapes are checked one by one
(41_stuffer.md R122). -/
theorem escape_avoids_sentinels {cfg : Cfg} (h : wfEsc cfg = true ∨ DefaultSentinels cfg) :
    ∀ r ∈ reservedSet cfg, r ||| 0x40 ∉ [cfg.sot, cfg.eot, cfg.xon, cfg.xoff] := by
  obtain hwf | ⟨hsot, heot, hsoe, hxon, hxoff⟩ := h
  · intro r _ hmem
    have hlow : r ||| 0x40 < 0x40 := (wfEsc_iff cfg).1 hwf _ (reserved_of_sentinel hmem)
    have hhigh : (0x40 : Byte).toNat ≤ (r ||| 0x40).toNat := by
      rw [BitVec.toNat_or]
      exact Nat.right_le_or
    exact absurd (BitVec.lt_def.1 hlow) (by omega)
  · simp only [reservedSet, hsot, heot, hsoe, hxon, hxoff]
    decide

/-! ## A wire frame through the reader -/

theorem stuff_length_le (cfg : Cfg) (x : List Byte) : (stuff cfg x).length ≤ 2 * x.length := by
  have hcount : x.countP (reserved cfg) ≤ x.length := List.countP_le_length
  rw [stuff_length]
  omega

/-- What ENCODE returns for a payload within `MAX_PAYLOAD` (42_frame_codec.md R145). -/
def encodedWire (cfg : Cfg) (dest src cmd : Byte) (payload : List Byte) : List Byte :=
  wireOf cfg (withChecksum (protectedRegion cfg dest src cmd payload))

theorem encodeFrame_of_length_le {cfg : Cfg} (dest src cmd : Byte) {payload : List Byte}
    (h : payload.length ≤ cfg.maxPayload) :
    encodeFrame cfg dest src cmd payload = .ok (encodedWire cfg dest src cmd payload) :=
  if_neg (Nat.not_lt.2 h)

/-- `RX_CAP` has room for every wire frame ENCODE makes (00_scope.md R9). -/
theorem encoded_length_lt_rxCap {cfg : Cfg} (hvalid : cfgValid cfg = true) (dest src cmd : Byte) {payload : List Byte}
    (hlen : payload.length ≤ cfg.maxPayload) :
    1 + (stuff cfg (withChecksum (protectedRegion cfg dest src cmd payload))).length < cfg.rxCap := by
  obtain ⟨-, -, -, hcap⟩ := (cfgValid_iff cfg).1 hvalid
  have hstuff := stuff_length_le cfg (withChecksum (protectedRegion cfg dest src cmd payload))
  have haddress := aliasExpand_length cfg dest
  simp only [withChecksum, protectedRegion, u16Bytes, List.length_append, List.length_cons, List.length_nil] at hstuff ⊢
  unfold defaultRxCap at hcap
  omega

/-- A delimited sequence with no delimiter inside and room for its EOT is one candidate, in any reader state, and leaves
the reader hunting (43_reader.md R171, R173). -/
theorem rxFeed_delimited {s : State} (hvalid : cfgValid s.cfg = true) {interior : List Byte}
    (hclean : ∀ b ∈ interior, b ≠ s.cfg.sot ∧ b ≠ s.cfg.eot) (hroom : 1 + interior.length < s.cfg.rxCap) :
    rxFeed ([s.cfg.sot] ++ interior ++ [s.cfg.eot]) s =
      (s.clearReader, [.candidate ([s.cfg.sot] ++ interior ++ [s.cfg.eot])]) := by
  obtain ⟨hne, -⟩ := sentinels_ne hvalid
  have hsot : rxFeed [s.cfg.sot] s = (s.setReader .inFrame [s.cfg.sot], []) := by
    cases hs : s.rxState <;> simp [rxFeed_cons, rxByte, hs, eventsOf]
  have hinterior : rxFeed interior (s.setReader .inFrame [s.cfg.sot]) =
      (s.setReader .inFrame ([s.cfg.sot] ++ interior), []) :=
    rxFeed_interior interior (s.setReader .inFrame [s.cfg.sot]) rfl hclean hroom
  have heot : rxFeed [s.cfg.eot] (s.setReader .inFrame ([s.cfg.sot] ++ interior)) =
      (s.clearReader, [.candidate ([s.cfg.sot] ++ interior ++ [s.cfg.eot])]) := by
    simp [rxFeed_cons, rxByte, hne.symm, eventsOf, State.clearReader, State.setReader]
  simp only [rxFeed_append, hsot, hinterior, heot, List.nil_append]

/-- What ENCODE returns comes out of the reader as itself. -/
theorem rxFeed_encodedWire {s : State} (hvalid : cfgValid s.cfg = true)
    (hesc : wfEsc s.cfg = true ∨ DefaultSentinels s.cfg) (dest src cmd : Byte) {payload : List Byte}
    (hlen : payload.length ≤ s.cfg.maxPayload) :
    rxFeed (encodedWire s.cfg dest src cmd payload) s =
      (s.clearReader, [.candidate (encodedWire s.cfg dest src cmd payload)]) := by
  refine rxFeed_delimited hvalid (fun b hb => ?_) (encoded_length_lt_rxCap hvalid dest src cmd hlen)
  have havoid := stuff_avoids_sentinels hvalid (escape_avoids_sentinels hesc) _ b hb
  simp only [List.mem_cons, not_or] at havoid
  obtain ⟨hsot, heot, -⟩ := havoid
  exact ⟨hsot, heot⟩

end Sys2Proof.Machine
end

section
/-! PROOFS. Encoding and the command interface (30_encoding.md): the serialized form, the opcode map, the results, and
the pseudo-operations of R72. -/

namespace Sys2Proof.Machine

open Sys2Proof

/-- Settles O4: by the shape of the operand, each read back from its serialized form. -/
theorem decodeOfEncodeIsTheInstruction : Obligations.DecodeOfEncodeIsTheInstruction :=
  fun _ rest hwf => decode_encode hwf rest

/-- Settles O5: the stream is a transaction's serialized form, and a transaction read as an operation is its own. -/
theorem encodeOfDecodeIsTheStream : Obligations.EncodeOfDecodeIsTheStream :=
  fun _ _ _ hdecode => eq_encode_of_decode hdecode

/-- Settles O6: the opcode map and its inversion. -/
theorem transactionAndInstructionAgree : Obligations.TransactionAndInstructionAgree :=
  ⟨decodeTransaction_transactionOf, fun _ _ hread => eq_transactionOf hread⟩

/-- Settles O2: illegal, by the decoder and by the fields of R61, is outside 0x01 to 0x0C. -/
theorem commandWordsAreTwelveOrIllegal : Obligations.CommandWordsAreTwelveOrIllegal := by
  intro cw rest
  rw [decode_eq_illegal_iff, selected_eq_illegal_iff]
  exact ⟨(illegal_fields_iff cw).symm, Iff.rfl, exists_commandWord_eq_iff cw⟩

/-- Settles O3: the word selects nothing, so both forms take it alone and answer in the state without it. -/
theorem illegalCommandWordChangesNoState : Obligations.IllegalCommandWordChangesNoState := by
  refine ⟨rfl, fun s cw hfields => ?_⟩
  have hillegal : selected cw = .illegal := (selected_eq_illegal_iff cw).2 ((illegal_fields_iff cw).1 hfields)
  constructor
  · intro rest hpending hstream
    exact step_of_stream_illegal hpending (hstream ▸ decode_of_illegal hillegal rest)
  · intro o rest hpending
    exact step_of_pending_illegal hpending (decodeTransaction_of_illegal hillegal o)

/-- Settles O1: the decoder run on each of the twelve written-out words. -/
theorem writtenOutWordsDecode : Obligations.WrittenOutWordsDecode := by
  refine ⟨?_, ?_, ?_, ?_, ?_, ?_, ?_, ?_, ?_, ?_, ?_, ?_⟩ <;> decide

/-- Settles O7: with nothing queued, the step takes what the decoder reads off the stream. -/
theorem stepRunsTheDecodedInstruction : Obligations.StepRunsTheDecodedInstruction :=
  fun _ _ _ hpending hdecode => step_of_stream_instr hpending hdecode

/-- Settles O8: the operation is read back from its transaction. -/
theorem stepRunsTheHostsTransaction : Obligations.StepRunsTheHostsTransaction :=
  fun _ i _ hpending => step_of_pending_instr hpending (decodeTransaction_transactionOf i)

/-- Settles O15: row by row, and no two rows have one byte. -/
theorem resultCodeBytesAndFields : Obligations.ResultCodeBytesAndFields := by
  refine ⟨rfl, fun a b hbyte => resultByte_injective hbyte, fun a => ?_⟩
  cases a <;> rfl

/-- Settles O13: one result, and it fits its operation. -/
theorem everyOperationReturnsOneResult : Obligations.EveryOperationReturnsOneResult := by
  intro i s
  obtain ⟨t, hrun, hresults⟩ := exec_results i s
  have hfits := resultReturned_fits i s
  exact ⟨t, _, hrun, hresults, hfits.none_of_error, hfits.shape_of_ok⟩

/-- Settles O14: the result fits its operation. -/
theorem errorsAreOnlyThoseListed : Obligations.ErrorsAreOnlyThoseListed := by
  intro i s t r hrun hresults
  have hfits := fits_of_exec hrun hresults
  exact ⟨hfits.code, hfits.overflow_of_event⟩

/-- Settles O16: the rows of the table by the value's shape; and results of one operation fit it, which leaves one way
to read their bytes. -/
theorem serializedResultsFollowTheTable : Obligations.SerializedResultsFollowTheTable := by
  refine ⟨fun _ => rfl, fun _ => rfl, fun _ => rfl, fun x hx => ?_, fun f hf => ?_, rfl, fun c hc => ?_,
    fun es hes hcandidates => ?_, ?_⟩
  · simp [serializeResult, serializeValue, serializeSeq_of_length hx, resultByte]
  · simp [serializeResult, serializeValue, serializeSeq_of_length hf, resultByte, u16Bytes]
  · simp [serializeResult, serializeValue, serializeSeq_of_length hc, resultByte]
  · have hevents : serializeResult ⟨.ok, .events es⟩ = some ([0x00] ++ len16 es.length ++ es.flatMap eventBytes) := by
      simp [serializeResult, serializeValue, hes, serializeEvents_eq hcandidates, resultByte]
    exact hevents
  · intro i s s' t t' r r' x x' rest rest' hrun hresults hrun' hresults' hx hx' h
    exact serializeResult_append_inj (fits_of_exec hrun hresults) (fits_of_exec hrun' hresults') hx hx' h

/-- Settles O32: CRC_INIT puts `S.crc` to 0, from which CHECKSUM folds too. -/
theorem incrementalChecksumIsChecksum : Obligations.IncrementalChecksumIsChecksum := by
  intro x s
  obtain ⟨rs, hrun⟩ := execAll_crcSeq x ((s.setCrc 0x0000).answer ⟨.ok, .u16 0x0000⟩)
  exact ⟨_, (s.setCrc (crcFold 0x0000 x)).answer ⟨.ok, .u16 (crcFold 0x0000 x)⟩, hrun, rfl, rfl, rfl, rfl, rfl⟩

/-- Settles O60: the wire frame is one candidate of the reader, also after ENCODE has added its result. -/
theorem encodedFrameSurvivesTheReader : Obligations.EncodedFrameSurvivesTheReader := by
  intro dest src cmd payload s hvalid hesc hlen
  have hfeed := rxFeed_encodedWire hvalid hesc dest src cmd hlen
  refine ⟨s.answer ⟨.ok, .seq (encodedWire s.cfg dest src cmd payload)⟩, encodedWire s.cfg dest src cmd payload,
    ?_, rfl, ?_, ?_⟩
  · simp only [exec, execEncode, encodeFrame_of_length_le dest src cmd hlen]
    rfl
  · simp [recv, rxFeed_answer, hfeed, candidatesOf]
  · simp only [exec, execRxPush, rxFeed_answer, hfeed]
    rfl

end Sys2Proof.Machine
end

section
/-! SUPPORT. The recurrence of 40_checksum.md R100 on natural numbers and as the polynomial form (R102), the residue law
(R103), the fold under a change of one byte (R109), and VERIFY's answer (R107). -/

namespace Sys2Proof.Machine

open Sys2Proof

/-! ## Each line on natural numbers -/

theorem toNat_crcSwap (s : U16) : (crcSwap s).toNat = ((s.toNat >>> 8) ||| (s.toNat <<< 8)) % 65536 := by
  have hshift : s.toNat >>> 8 < 2 ^ 16 := lt_of_le_of_lt (Nat.shiftRight_le _ _) s.isLt
  have hmask := Nat.or_mod_two_pow (a := s.toNat >>> 8) (b := s.toNat <<< 8) (n := 16)
  rw [Nat.mod_eq_of_lt hshift] at hmask
  exact hmask.symm

theorem toNat_crcMix4 (t : U16) : (crcMix4 t).toNat = t.toNat ^^^ ((t.toNat &&& 0xFF) >>> 4) := by
  simp [crcMix4]

theorem toNat_crcMix12 (t : U16) : (crcMix12 t).toNat = (t.toNat ^^^ (t.toNat <<< 12)) % 65536 := by
  simp [crcMix12, Nat.xor_mod_two_pow (n := 16), Nat.mod_eq_of_lt t.isLt]

theorem toNat_crcMix5 (t : U16) : (crcMix5 t).toNat = (t.toNat ^^^ ((t.toNat &&& 0xFF) <<< 5)) % 65536 := by
  simp [crcMix5, Nat.xor_mod_two_pow (n := 16), Nat.mod_eq_of_lt t.isLt]

/-! ## The polynomial form -/

/-- The byte enters both forms at the same bits: the low ones after the swap are the high ones before it. -/
theorem crcSwap_xor_byte (s : U16) (b : Byte) :
    crcSwap s ^^^ b.setWidth 16 = crcSwap (s ^^^ (b.setWidth 16 <<< 8)) := by
  apply BitVec.eq_of_getElem_eq
  intro i hi
  interval_cases i <;> simp [crcSwap]

/-- The swap and the three mixing lines are eight shifts: every bit gathers the same bits of `t`. -/
theorem crcMix_crcSwap_eq_polyShift_iterate (t : U16) :
    crcMix5 (crcMix12 (crcMix4 (crcSwap t))) = polyShift^[4] (polyShift^[4] t) := by
  simp only [polyShift_iterate_four, crcMix5, crcMix12, crcMix4, crcSwap]
  apply BitVec.eq_of_getElem_eq
  intro i hi
  interval_cases i <;> simp
  -- Bit 12 is left: the two forms gather its three bits in different orders.
  rw [Bool.bne_eq_xor, ← Bool.xor_assoc, Bool.xor_comm]

/-- The recurrence is the polynomial form (40_checksum.md R102). -/
theorem crcStep_eq_polyStep (s : U16) (b : Byte) : crcStep s b = polyStep s b := by
  rw [crcStep, crcSwap_xor_byte, crcMix_crcSwap_eq_polyShift_iterate, ← polyStep_eq_four_four]

/-! ## The residue, and a change of one byte -/

/-- The residue law (40_checksum.md R103): two bytes bring the state to 0 from their own value, and no two states come
to 0 by the same bytes. -/
theorem crcFold_append_bytes_eq_zero_iff (m : List Byte) (x : U16) :
    crcFold 0x0000 (m ++ [hiByte x, loByte x]) = 0x0000 ↔ x = crcFold 0x0000 m := by
  rw [crcFold_append]
  constructor
  · intro h
    exact crcFold_left_cancel ((crcFold_own_bytes x).trans h.symm)
  · rintro rfl
    exact crcFold_own_bytes _

/-- Two sequences that differ in one byte have different folds: before it the states agree, and neither the step at it
nor the bytes after it lose the difference. -/
theorem crcFold_set_ne {seq : List Byte} {i : Nat} {b b' : Byte} (hi : seq[i]? = some b) (hne : b' ≠ b) (s : U16) :
    crcFold s (seq.set i b') ≠ crcFold s seq := by
  induction seq generalizing i s with
  | nil => simp at hi
  | cons a x ih =>
    cases i with
    | zero =>
      obtain rfl : a = b := by simpa using hi
      exact fun heq => hne (crcStep_right_cancel (crcFold_left_cancel heq))
    | succ i => exact ih (by simpa using hi) (crcStep s a)

/-- Flipping one of its eight bits changes a byte. -/
theorem xor_one_shiftLeft_ne (b : Byte) {k : Nat} (hk : k < 8) : b ^^^ (0x01#8 <<< k) ≠ b := by
  intro h
  have hbit := congrArg (·.getLsbD k) h
  simp [hk] at hbit

/-! ## VERIFY -/

theorem verifies_eq_decide (x : List Byte) :
    verifies x = decide (2 ≤ x.length ∧ crcFold 0x0000 x = 0x0000) := by
  rw [Bool.eq_iff_iff, verifies_iff, decide_eq_true_iff]

/-- VERIFY leaves the residue in `S.crc` and answers its test as a value (40_checksum.md R107). -/
theorem exec_verify (seq : List Byte) (s : State) :
    exec (.verify seq) s = .next ((s.setCrc (crcFold 0x0000 seq)).answer
      ⟨.ok, .bool (decide (2 ≤ seq.length ∧ crcFold 0x0000 seq = 0x0000))⟩) := by
  rw [← verifies_eq_decide]
  rfl

end Sys2Proof.Machine
end

section
/-! PROOFS. The Checksum Engine (40_checksum.md): the recurrence, the residue law, and the four operations. -/

namespace Sys2Proof.Machine

open Sys2Proof

/-- Settles O24: each line's number is the line of R100 on the number before it. -/
theorem crcStepIsTheRecurrence : Obligations.CrcStepIsTheRecurrence := by
  intro s b
  simp only [crcStep, toNat_crcMix5, toNat_crcMix12, toNat_crcMix4, BitVec.toNat_xor, toNat_crcSwap,
    BitVec.toNat_setWidth_of_le (show 8 ≤ 16 by decide)]

/-- Settles O25: the byte enters both forms at the same bits, and the mixing lines are the eight shifts. -/
theorem crcStepIsThePolynomialForm : Obligations.CrcStepIsThePolynomialForm :=
  crcStep_eq_polyStep

/-- Settles O26: the bytes of `x` lead to 0 from `x`, hence from no other state. -/
theorem residueIsZeroExactlyForTheChecksum : Obligations.ResidueIsZeroExactlyForTheChecksum :=
  crcFold_append_bytes_eq_zero_iff

/-- Settles O27: CRC_INIT run in any state. -/
theorem crcInitResult : Obligations.CrcInitResult := ⟨rfl, fun _ => rfl⟩

/-- Settles O28: each line of the recurrence has an inverse, so the state comes back from the result and the byte, and
the byte from the result and the state. -/
theorem crcByteResult : Obligations.CrcByteResult := by
  refine ⟨fun b s => ⟨rfl, rfl⟩, by decide, fun b => ⟨fun _ _ => crcStep_left_cancel, fun u => ?_⟩,
    fun _ _ _ => crcStep_right_cancel⟩
  exact ⟨crcUnstep u b, crcStep_crcUnstep u b⟩

/-- Settles O29: CHECKSUM run in any state; it does not read `S.crc`. -/
theorem checksumResult : Obligations.ChecksumResult := fun _ _ => ⟨rfl, rfl⟩

/-- Settles O30: VERIFY's equation, and the residue law for the two bytes of `c`. -/
theorem verifyResult : Obligations.VerifyResult := by
  intro seq s
  refine ⟨rfl, exec_verify seq s, ?_⟩
  rintro m c rfl
  have hlen : 2 ≤ (m ++ [hiByte c, loByte c]).length := by simp
  rw [crcFold_append_bytes_eq_zero_iff, and_iff_right hlen]

/-- Settles O31: the changed byte changes the residue, which was 0. -/
theorem singleBitErrorIsDetected : Obligations.SingleBitErrorIsDetected := by
  intro seq s i k b hzero hi hk
  have hresidue : crcFold 0x0000 (seq.set i (b ^^^ (0x01#8 <<< k))) ≠ 0x0000 :=
    fun h => crcFold_set_ne hi (xor_one_shiftLeft_ne b hk) 0x0000 (h.trans hzero.symm)
  refine ⟨hresidue, _, exec_verify _ s, ?_⟩
  rw [State.answer_results, decide_eq_false fun hverifies => hresidue hverifies.2, State.setCrc_results]

end Sys2Proof.Machine
end

section
/-! SUPPORT. STUFF and UNSTUFF as operations, and each as the inverse of the other (41_stuffer.md R121, R123, R124). -/

namespace Sys2Proof.Machine

open Sys2Proof

/-! ## The operations -/

theorem exec_stuff (x : List Byte) (s : State) :
    exec (.stuff x) s = .next (s.answer ⟨.ok, .seq (stuff s.cfg x)⟩) := rfl

theorem exec_unstuff (y : List Byte) (s : State) :
    exec (.unstuff y) s = .next (s.answer (resultOf ((unstuff s.cfg y).map .seq))) :=
  returnOrRaise_next _ s

theorem exec_unstuff_of_ok {y x : List Byte} {s : State} (h : unstuff s.cfg y = .ok x) :
    exec (.unstuff y) s = .next (s.answer ⟨.ok, .seq x⟩) := by
  rw [exec_unstuff, h]
  rfl

theorem exec_unstuff_of_error {y : List Byte} {s : State} {rc : ResultCode} (h : unstuff s.cfg y = .error rc) :
    exec (.unstuff y) s = .next (s.answer ⟨rc, .none⟩) := by
  rw [exec_unstuff, h]
  rfl

/-- A sequence among UNSTUFF's results is what `unstuff` computed: an error's value is none. -/
theorem unstuff_of_result {y x : List Byte} {s t : State} (hrun : exec (.unstuff y) s = .next t)
    (hresult : t.results = s.results ++ [⟨.ok, .seq x⟩]) : unstuff s.cfg y = .ok x := by
  have hreturned : ⟨.ok, .seq x⟩ = resultOf ((unstuff s.cfg y).map .seq) := eq_resultReturned hrun hresult
  cases hu : unstuff s.cfg y with
  | error rc => simp [hu, Except.map, resultOf] at hreturned
  | ok x' => simpa [hu, Except.map, resultOf, eq_comm] using hreturned

/-! ## The turns of the loops -/

/-- `stuff` replaces each byte on its own (41_stuffer.md R121). -/
theorem stuff_eq_flatMap (cfg : Cfg) (x : List Byte) :
    stuff cfg x = x.flatMap fun b => if reserved cfg b then [cfg.soe, escapeByte b] else [b] := by
  induction x with
  | nil => rfl
  | cons b x ih => rw [stuff_cons, ih, List.flatMap_cons]

theorem reserved_soe (cfg : Cfg) : reserved cfg cfg.soe = true := by
  simp [reserved_iff]

theorem unstuff_badEscape {cfg : Cfg} {e : Byte} (h : canonicalEscape cfg e = false) (rest : List Byte) :
    unstuff cfg (cfg.soe :: e :: rest) = .error .badEscape := by
  rw [unstuff_soe_cons, h]
  rfl

theorem unstuff_literalReserved {cfg : Cfg} {b : Byte} (hr : reserved cfg b = true) (hb : b ≠ cfg.soe)
    (rest : List Byte) : unstuff cfg (b :: rest) = .error .literalReserved := by
  rw [unstuff_cons cfg hb, if_pos hr]

/-- A canonical escape is the escape of the reserved byte it stands for (41_stuffer.md R123, D9). -/
theorem reserved_and_eq_of_canonicalEscape {cfg : Cfg} {e : Byte} (h : canonicalEscape cfg e = true) :
    reserved cfg (unescapeByte e) = true ∧ e = escapeByte (unescapeByte e) := by
  simpa [canonicalEscape] using h

/-- An error after a well-formed beginning is the error of the whole: what follows is looked at only then. -/
theorem unstuff_append_of_error {cfg : Cfg} {p x q : List Byte} {rc : ResultCode} (hp : unstuff cfg p = .ok x)
    (hq : unstuff cfg q = .error rc) : unstuff cfg (p ++ q) = .error rc := by
  rw [unstuff_append hp, hq]
  rfl

/-! ## Each the inverse of the other -/

/-- Stuffing what `unstuff` returned gives back its operand (41_stuffer.md R124, law 1): UNSTUFF accepts no escape but
the one STUFF writes, and no literal STUFF would escape. -/
theorem stuff_of_unstuff {cfg : Cfg} {y x : List Byte} (h : unstuff cfg y = .ok x) : stuff cfg x = y := by
  induction x generalizing y with
  | nil =>
    obtain ⟨rfl, -⟩ | ⟨_, _, _, -, -, hx, -⟩ | ⟨_, _, _, -, -, -, hx, -⟩ := unstuff_ok_cases h
    · rfl
    · cases hx
    · cases hx
  | cons a x ih =>
    obtain ⟨-, hx⟩ | ⟨e, y', x', rfl, hescape, hx, hrest⟩ | ⟨b, y', x', rfl, -, hliteral, hx, hrest⟩ :=
      unstuff_ok_cases h
    · cases hx
    · obtain ⟨rfl, rfl⟩ := List.cons.inj hx
      obtain ⟨hreserved, he⟩ := reserved_and_eq_of_canonicalEscape hescape
      rw [stuff_cons, if_pos hreserved, ← he, ih hrest]
      rfl
    · obtain ⟨rfl, rfl⟩ := List.cons.inj hx
      rw [stuff_cons, hliteral, ih hrest]
      rfl

/-- Where every reserved byte is below 0x40, its escape is canonical, and UNSTUFF reads back what was stuffed
(41_stuffer.md R124, law 2). -/
theorem unstuff_stuff {cfg : Cfg} {x : List Byte} (h : ∀ b ∈ x, reserved cfg b = true → b < 0x40) :
    unstuff cfg (stuff cfg x) = .ok x := by
  induction x with
  | nil => simp
  | cons a x ih =>
    obtain ⟨ha, hx⟩ := List.forall_mem_cons.1 h
    rw [stuff_cons]
    cases hr : reserved cfg a with
    | true =>
      have hturn : unstuff cfg (cfg.soe :: escapeByte a :: stuff cfg x) =
          (unstuff cfg (stuff cfg x)).map (unescapeByte (escapeByte a) :: ·) := by
        rw [unstuff_soe_cons, if_pos (canonicalEscape_escapeByte hr (ha hr))]
      rw [ih hx, unescape_escape (ha hr)] at hturn
      exact hturn
    | false =>
      have hsoe : a ≠ cfg.soe := fun heq => Bool.false_ne_true (hr.symm.trans (heq ▸ reserved_soe cfg))
      have hturn : unstuff cfg (a :: stuff cfg x) = (unstuff cfg (stuff cfg x)).map (a :: ·) := by
        rw [unstuff_cons cfg hsoe, hr]
        rfl
      rw [ih hx] at hturn
      exact hturn

/-! ## The default sentinels -/

/-- Of the default sentinels SOE alone is not below 0x40 (00_scope.md R10). -/
theorem DefaultSentinels.lt_of_reserved {cfg : Cfg} (h : DefaultSentinels cfg) {b : Byte}
    (hr : reserved cfg b = true) (hb : b ≠ 0x5E) : b < 0x40 := by
  obtain ⟨hsot, heot, hsoe, hxon, hxoff⟩ := h
  simp only [reserved_iff, hsot, heot, hsoe, hxon, hxoff, List.mem_cons, List.not_mem_nil, or_false] at hr
  obtain rfl | rfl | rfl | rfl | rfl := hr
  · decide
  · decide
  · decide
  · decide
  · exact absurd rfl hb

/-- The escape of the default SOE unescapes to 0x1E, which is not reserved (41_stuffer.md R125). -/
theorem DefaultSentinels.not_canonicalEscape {cfg : Cfg} (h : DefaultSentinels cfg) :
    canonicalEscape cfg (escapeByte 0x5E) = false := by
  obtain ⟨hsot, heot, hsoe, hxon, hxoff⟩ := h
  simp only [canonicalEscape, reserved, reservedSet, hsot, heot, hsoe, hxon, hxoff]
  decide

/-- Up to the first 0x5E UNSTUFF reads back what was stuffed, and there it meets an escape that is not canonical
(41_stuffer.md R125). -/
theorem unstuff_stuff_defaultSoe {cfg : Cfg} (h : DefaultSentinels cfg) {x : List Byte} (hx : 0x5E ∈ x) :
    unstuff cfg (stuff cfg x) = .error .badEscape := by
  obtain ⟨before, after, rfl, hbefore⟩ := List.eq_append_cons_of_mem hx
  have ⟨_, _, hsoe, _⟩ := h
  have hlow : ∀ b ∈ before, reserved cfg b = true → b < 0x40 := fun b hb hr =>
    h.lt_of_reserved hr fun heq => hbefore (heq ▸ hb)
  have hfirst : stuff cfg (0x5E :: after) = cfg.soe :: escapeByte 0x5E :: stuff cfg after := by
    rw [stuff_cons, if_pos (hsoe ▸ reserved_soe cfg)]
    rfl
  rw [stuff_append, hfirst]
  exact unstuff_append_of_error (unstuff_stuff hlow) (unstuff_badEscape h.not_canonicalEscape _)

end Sys2Proof.Machine
end

section
/-! SUPPORT. A wire frame that DECODE accepts, taken apart (42_frame_codec.md R147, R148). -/

namespace Sys2Proof.Machine

open Sys2Proof

/-- A Frame among DECODE's results is what `decodeFrame` computed: an error's value is none. -/
theorem decodeFrame_of_result {w : List Byte} {f : Frame} {s t : State} (hrun : exec (.decode w) s = .next t)
    (hresult : t.results = s.results ++ [⟨.ok, .frame f⟩]) : decodeFrame s.cfg w = .ok f := by
  have hreturned : ⟨.ok, .frame f⟩ = resultOf ((decodeFrame s.cfg w).map .frame) := eq_resultReturned hrun hresult
  cases hd : decodeFrame s.cfg w with
  | error rc => simp [hd, Except.map, resultOf] at hreturned
  | ok f' => simpa [hd, Except.map, resultOf, eq_comm] using hreturned

theorem exec_encode_of_ok {dest src cmd : Byte} {payload w : List Byte} {s : State}
    (h : encodeFrame s.cfg dest src cmd payload = .ok w) :
    exec (.encode dest src cmd payload) s = .next (s.answer ⟨.ok, .seq w⟩) := by
  simp only [exec, execEncode, h]
  rfl

/-- A Frame comes from an interior that unstuffs to a region that passes the checks on it. -/
theorem decodeFrame_ok {cfg : Cfg} {w : List Byte} {f : Frame} (h : decodeFrame cfg w = .ok f) :
    ∃ interior u, interiorOf cfg w = .ok interior ∧ unstuff cfg interior = .ok u ∧ frameOfRegion cfg u = .ok f := by
  unfold decodeFrame at h
  split at h
  next => cases h
  next interior hinterior =>
    split at h
    next => cases h
    next u hu => exact ⟨interior, u, hinterior, hu, h⟩

theorem frameOfRegion_ok {cfg : Cfg} {u : List Byte} {f : Frame} (h : frameOfRegion cfg u = .ok f) :
    5 ≤ u.length ∧ crcFold 0x0000 u = 0x0000 ∧ fieldsOf cfg u = .ok f := by
  unfold frameOfRegion at h
  split_ifs at h with hshort hresidue
  exact ⟨Nat.not_lt.1 hshort, not_not.1 hresidue, h⟩

/-- A region of at least five bytes has room for every field with one-byte addresses (42_frame_codec.md R141). -/
theorem exists_fields_of_length {u : List Byte} (h : 5 ≤ u.length) :
    ∃ dest src cmd payload c, u = [dest, src, cmd] ++ payload ++ u16Bytes c := by
  match u with
  | dest :: src :: cmd :: rest =>
    have hrest : 2 ≤ rest.length := by simpa using h
    obtain rfl | ⟨front, lsb, rfl⟩ := List.eq_nil_or_concat rest
    · simp at hrest
    · obtain rfl | ⟨payload, msb, rfl⟩ := List.eq_nil_or_concat front
      · simp at hrest
      · exact ⟨dest, src, cmd, payload, joinBytes msb lsb, by simp [u16Bytes_joinBytes]⟩

/-- Without aliases the fields of a region are its bytes. -/
theorem fieldsOf_of_no_aliases {cfg : Cfg} (h : cfg.aliases = []) (dest src cmd : Byte) (payload : List Byte) (c : U16) :
    fieldsOf cfg ([dest, src, cmd] ++ payload ++ u16Bytes c) =
      if cfg.maxPayload < payload.length then .error .tooLong else .ok ⟨dest, src, cmd, payload, c⟩ := by
  rw [fieldsOf_eq (aliasFold_of_no_aliases h _ 0) (aliasFold_of_no_aliases h _ 1) rfl, joinBytes_hiByte_loByte]
  rfl

/-- Without aliases, a region that passes every check is its Frame's fields with their own checksum behind,
and the payload is within `MAX_PAYLOAD`. -/
theorem frameOfRegion_ok_of_no_aliases {cfg : Cfg} {u : List Byte} {f : Frame} (h : frameOfRegion cfg u = .ok f)
    (haliases : cfg.aliases = []) :
    u = withChecksum ([f.dest, f.src, f.cmd] ++ f.payload) ∧
      f.checksum = crcFold 0x0000 ([f.dest, f.src, f.cmd] ++ f.payload) ∧ f.payload.length ≤ cfg.maxPayload := by
  obtain ⟨hlen, hresidue, hfields⟩ := frameOfRegion_ok h
  obtain ⟨dest, src, cmd, payload, c, rfl⟩ := exists_fields_of_length hlen
  rw [fieldsOf_of_no_aliases haliases] at hfields
  split_ifs at hfields with hlong
  cases hfields
  have hc : c = crcFold 0x0000 ([dest, src, cmd] ++ payload) := (crcFold_append_bytes_eq_zero_iff _ c).1 hresidue
  exact ⟨by rw [withChecksum, ← hc], hc, Nat.not_lt.1 hlong⟩

/-- Without aliases, ENCODE of a decoded Frame's fields is the wire it was decoded from. -/
theorem encodeFrame_of_decodeFrame {cfg : Cfg} {w : List Byte} {f : Frame} (h : decodeFrame cfg w = .ok f)
    (haliases : cfg.aliases = []) :
    f.checksum = crcFold 0x0000 ([f.dest, f.src, f.cmd] ++ f.payload) ∧
      encodeFrame cfg f.dest f.src f.cmd f.payload = .ok w := by
  obtain ⟨interior, u, hinterior, hunstuff, hframe⟩ := decodeFrame_ok h
  obtain ⟨hw, -⟩ := eq_of_interiorOf hinterior
  obtain ⟨hregion, hchecksum, hlen⟩ := frameOfRegion_ok_of_no_aliases hframe haliases
  have hprotected : protectedRegion cfg f.dest f.src f.cmd f.payload = [f.dest, f.src, f.cmd] ++ f.payload := by
    rw [protectedRegion, aliasExpand_of_no_aliases haliases]
    rfl
  refine ⟨hchecksum, ?_⟩
  rw [encodeFrame_of_length_le _ _ _ hlen, encodedWire, hprotected, ← hregion, wireOf, stuff_of_unstuff hunstuff, hw]
  rfl

end Sys2Proof.Machine
end

section
/-! PROOFS. The Byte Stuffer (41_stuffer.md): both operations in every state, delimiter safety, and the round trips; and
the round trip of a decoded frame, which rests on them (42_frame_codec.md). -/

namespace Sys2Proof.Machine

open Sys2Proof

/-- Settles O47: the region DECODE checked is its fields with their checksum, and stuffs back to the interior. -/
theorem encodeOfDecodedFrameIsTheWire : Obligations.EncodeOfDecodedFrameIsTheWire := by
  intro w f s t haliases hrun hresult
  have hframe : decodeFrame t.cfg w = .ok f := exec_cfg hrun ▸ decodeFrame_of_result hrun hresult
  obtain ⟨hchecksum, hencode⟩ := encodeFrame_of_decodeFrame hframe (exec_cfg hrun ▸ haliases)
  exact ⟨hchecksum, exec_encode_of_ok hencode⟩

/-- Settles O34: each byte is replaced on its own, and each reserved one adds one. -/
theorem stuffResult : Obligations.StuffResult := by
  intro x s
  refine ⟨rfl, stuff s.cfg x, exec_stuff x s, ?_, stuff_length s.cfg x, stuff_length_le s.cfg x⟩
  simp only [stuff_eq_flatMap, reserved_iff, escapeByte]

/-- Settles O35: the bytes of a stuffed sequence one by one, and the escapes of both kinds of configuration. -/
theorem stuffedBytesHoldNoDelimiter : Obligations.StuffedBytesHoldNoDelimiter :=
  ⟨fun _ => stuff_avoids_sentinels, fun _ => escape_avoids_sentinels⟩

/-- Settles O36: the operation by what `unstuff` computes, and the equations of its turns. -/
theorem unstuffResult : Obligations.UnstuffResult := by
  refine ⟨fun y s => ⟨rfl, fun x => exec_unstuff_of_ok, fun rc => exec_unstuff_of_error⟩, fun cfg => ?_⟩
  refine ⟨unstuff_nil cfg, unstuff_soe cfg, fun e y => ?_, fun b y hb => ?_⟩
  · simp only [unstuff_soe_cons, canonicalEscape_iff, reserved_iff, unescapeByte]
  · simp only [unstuff_cons cfg hb, reserved_iff]

/-- Settles O37: UNSTUFF of the whole goes on where the well-formed beginning ends. -/
theorem unstuffReportsTheLeftmostFault : Obligations.UnstuffReportsTheLeftmostFault := by
  intro s p x hp
  refine ⟨?_, fun e rest he => ?_, fun b rest hr hb => ?_, fun q y hq => ?_⟩
  · exact exec_unstuff_of_error (unstuff_append_of_error hp (unstuff_soe s.cfg))
  · exact exec_unstuff_of_error (unstuff_append_of_error hp (unstuff_badEscape he rest))
  · exact exec_unstuff_of_error (unstuff_append_of_error hp (unstuff_literalReserved hr hb rest))
  · refine exec_unstuff_of_ok ?_
    rw [unstuff_append hp, hq]
    rfl

/-- Settles O38: UNSTUFF leaves the configuration, and its operand is the one stuffed form of what it returned. -/
theorem stuffInvertsUnstuff : Obligations.StuffInvertsUnstuff := by
  intro y x s t hrun hresult
  have hstuff : stuff t.cfg x = y := exec_cfg hrun ▸ stuff_of_unstuff (unstuff_of_result hrun hresult)
  rw [exec_stuff, hstuff]
  rfl

/-- Settles O39: the escapes of bytes below 0x40 are canonical, and under `WF_ESC` no reserved byte is another. -/
theorem unstuffInvertsStuff : Obligations.UnstuffInvertsStuff := by
  constructor
  · intro x s hlow
    exact exec_unstuff_of_ok (unstuff_stuff hlow)
  · intro x s hwf
    exact exec_unstuff_of_ok (unstuff_stuff fun b _ => (wfEsc_iff s.cfg).1 hwf b)

/-- Settles O40: the first 0x5E of the operand becomes an escape that UNSTUFF rejects. -/
theorem defaultSoeDoesNotRoundTrip : Obligations.DefaultSoeDoesNotRoundTrip :=
  fun _ _ hdefault hmem => exec_unstuff_of_error (unstuff_stuff_defaultSoe hdefault hmem)

end Sys2Proof.Machine
end

section
/-! SUPPORT. Address aliases in a valid configuration (42_frame_codec.md R142, R143). -/

namespace Sys2Proof.Machine

open Sys2Proof

/-- Where a key is distinct along a list, the search for an entry by its key finds that entry. -/
theorem find?_eq_some_of_nodup_map {α β : Type} {key : α → β} {l : List α} (hnodup : (l.map key).Nodup) {a : α}
    (ha : a ∈ l) {p : α → Bool} (hpa : p a = true) (hkey : ∀ b, p b = true → key b = key a) :
    l.find? p = some a := by
  cases hfind : l.find? p with
  | none => exact absurd hpa (List.find?_eq_none.1 hfind a ha)
  | some b =>
    have hb : key b = key a := hkey b (List.find?_some hfind)
    rw [List.inj_on_of_nodup_map hnodup (List.mem_of_find?_eq_some hfind) ha hb]

/-- A canonical byte is expanded to its entry's pair (42_frame_codec.md R142). -/
theorem aliasExpand_canonical {cfg : Cfg} (hvalid : cfgValid cfg = true) {a : AliasEntry} (ha : a ∈ cfg.aliases) :
    aliasExpand cfg a.canonical = [a.first, a.second] := by
  obtain ⟨-, hcanonical, -⟩ := (cfgValid_iff cfg).1 hvalid
  rw [aliasExpand, find?_eq_some_of_nodup_map hcanonical ha (by simp) (by simp)]

/-- Any other byte is its own address (42_frame_codec.md R142). -/
theorem aliasExpand_of_not_canonical {cfg : Cfg} {d : Byte} (h : ∀ a ∈ cfg.aliases, a.canonical ≠ d) :
    aliasExpand cfg d = [d] := by
  have hfind : cfg.aliases.find? (fun a => a.canonical == d) = none := by simpa using h
  rw [aliasExpand, hfind]

theorem byteAt_of_getElem? {u : List Byte} {i : Nat} {b : Byte} (h : u[i]? = some b) : byteAt u i = b := by
  simp [byteAt, h]

/-- A pair equal to an entry's is folded to the entry's canonical byte (42_frame_codec.md R143). -/
theorem aliasFold_pair {cfg : Cfg} (hvalid : cfgValid cfg = true) {a : AliasEntry} (ha : a ∈ cfg.aliases)
    {u : List Byte} {p : Nat} (hfirst : u[p]? = some a.first) (hsecond : u[p + 1]? = some a.second) :
    aliasFold cfg u p = (a.canonical, p + 2) := by
  obtain ⟨-, -, hpairs, -⟩ := (cfgValid_iff cfg).1 hvalid
  obtain ⟨hlt, -⟩ := List.getElem?_eq_some_iff.1 hsecond
  rw [aliasFold, if_pos hlt, byteAt_of_getElem? hfirst, byteAt_of_getElem? hsecond,
    find?_eq_some_of_nodup_map hpairs ha (by simp) (by simp [aliasPair])]

/-- A byte that begins no entry's pair is its own address, the last byte of the region too (42_frame_codec.md R143). -/
theorem aliasFold_single {cfg : Cfg} {u : List Byte} {p : Nat} {b : Byte} (hb : u[p]? = some b)
    (hnone : ∀ a ∈ cfg.aliases, ¬ (u[p]? = some a.first ∧ u[p + 1]? = some a.second)) :
    aliasFold cfg u p = (b, p + 1) := by
  rw [aliasFold, byteAt_of_getElem? hb]
  split
  next hlt =>
    have hnext : u[p + 1]? = some (byteAt u (p + 1)) := by simp [byteAt, hlt]
    have hfind : cfg.aliases.find? (fun a => a.first == b && a.second == byteAt u (p + 1)) = none := by
      rw [List.find?_eq_none]
      intro a ha hpair
      obtain ⟨hfirst, hsecond⟩ : a.first = b ∧ a.second = byteAt u (p + 1) := by simpa using hpair
      exact hnone a ha ⟨hfirst ▸ hb, hsecond ▸ hnext⟩
    rw [hfind]
  next => rfl

/-- The destination field as ENCODE wrote it folds back to the destination, unless it is one byte that begins a pair by
chance (42_frame_codec.md R149). -/
theorem aliasFold_aliasExpand {cfg : Cfg} (hvalid : cfgValid cfg = true) {dest next : Byte}
    (hchance : (∀ a ∈ cfg.aliases, a.canonical ≠ dest) → ∀ a ∈ cfg.aliases, ¬ (a.first = dest ∧ a.second = next))
    (rest : List Byte) :
    aliasFold cfg (aliasExpand cfg dest ++ next :: rest) 0 = (dest, (aliasExpand cfg dest).length) := by
  by_cases hcanonical : ∃ a ∈ cfg.aliases, a.canonical = dest
  · obtain ⟨a, ha, rfl⟩ := hcanonical
    rw [aliasExpand_canonical hvalid ha]
    exact aliasFold_pair hvalid ha rfl rfl
  · have hother : ∀ a ∈ cfg.aliases, a.canonical ≠ dest := by simpa using hcanonical
    rw [aliasExpand_of_not_canonical hother]
    refine aliasFold_single rfl fun a ha hpair => hchance hother a ha ?_
    simpa [eq_comm] using hpair

/-- The source field after an address is one byte, unless it begins a pair by chance (42_frame_codec.md R149). -/
theorem aliasFold_source {cfg : Cfg} {src cmd : Byte} (hchance : ∀ a ∈ cfg.aliases, ¬ (a.first = src ∧ a.second = cmd))
    (address rest : List Byte) :
    aliasFold cfg (address ++ src :: cmd :: rest) address.length = (src, address.length + 1) := by
  refine aliasFold_single (by simp) fun a ha hpair => hchance a ha ?_
  simpa [eq_comm] using hpair

end Sys2Proof.Machine
end

section
/-! SUPPORT. ENCODE and DECODE as operations, and DECODE's checks one by one in the order of 42_frame_codec.md R148. -/

namespace Sys2Proof.Machine

open Sys2Proof

/-! ## The operations -/

theorem exec_encode_of_length_le (dest src cmd : Byte) {payload : List Byte} {s : State}
    (h : payload.length ≤ s.cfg.maxPayload) :
    exec (.encode dest src cmd payload) s =
      .next (s.answer ⟨.ok, .seq (encodedWire s.cfg dest src cmd payload)⟩) :=
  exec_encode_of_ok (encodeFrame_of_length_le dest src cmd h)

theorem exec_encode_of_lt (dest src cmd : Byte) {payload : List Byte} {s : State}
    (h : s.cfg.maxPayload < payload.length) :
    exec (.encode dest src cmd payload) s = .next (s.answer ⟨.tooLong, .none⟩) := by
  simp only [exec, execEncode, encodeFrame, if_pos h]
  rfl

theorem exec_decode (w : List Byte) (s : State) :
    exec (.decode w) s = .next (s.answer (resultOf ((decodeFrame s.cfg w).map .frame))) :=
  returnOrRaise_next _ s

theorem exec_decode_of_ok {w : List Byte} {f : Frame} {s : State} (h : decodeFrame s.cfg w = .ok f) :
    exec (.decode w) s = .next (s.answer ⟨.ok, .frame f⟩) := by
  rw [exec_decode, h]
  rfl

theorem exec_decode_of_error {w : List Byte} {rc : ResultCode} {s : State} (h : decodeFrame s.cfg w = .error rc) :
    exec (.decode w) s = .next (s.answer ⟨rc, .none⟩) := by
  rw [exec_decode, h]
  rfl

/-! ## The three parts of DECODE -/

theorem decodeFrame_of_interior_error {cfg : Cfg} {w : List Byte} {rc : ResultCode}
    (h : interiorOf cfg w = .error rc) : decodeFrame cfg w = .error rc := by
  rw [decodeFrame, h]

theorem decodeFrame_of_unstuff_error {cfg : Cfg} {w interior : List Byte} {rc : ResultCode}
    (hinterior : interiorOf cfg w = .ok interior) (h : unstuff cfg interior = .error rc) :
    decodeFrame cfg w = .error rc := by
  simp only [decodeFrame, hinterior, h]

theorem decodeFrame_of_unstuff_ok {cfg : Cfg} {w interior u : List Byte} (hinterior : interiorOf cfg w = .ok interior)
    (h : unstuff cfg interior = .ok u) : decodeFrame cfg w = frameOfRegion cfg u := by
  simp only [decodeFrame, hinterior, h]

/-! ## The delimiters -/

theorem byteAt_length_sub_one (w : List Byte) : byteAt w (w.length - 1) = w.getLast?.getD 0 := by
  simp [byteAt, List.getLast?_eq_getElem?]

theorem interiorOf_missingSot {cfg : Cfg} {w : List Byte} (h : w.head? ≠ some cfg.sot) :
    interiorOf cfg w = .error .missingSot := by
  have hcheck : w.length < 1 ∨ byteAt w 0 ≠ cfg.sot := by
    cases w with
    | nil => exact .inl Nat.one_pos
    | cons b w => exact .inr fun hb => h (congrArg some hb)
  simp only [interiorOf, if_pos hcheck]

theorem interiorOf_missingEot {cfg : Cfg} {w : List Byte} (hsot : w.head? = some cfg.sot)
    (h : w.length < 2 ∨ w.getLast? ≠ some cfg.eot) : interiorOf cfg w = .error .missingEot := by
  have hfirst : ¬ (w.length < 1 ∨ byteAt w 0 ≠ cfg.sot) := by
    obtain ⟨rest, rfl⟩ := List.head?_eq_some_iff.1 hsot
    simp [byteAt]
  have hlast : w.length < 2 ∨ byteAt w (w.length - 1) ≠ cfg.eot := by
    refine h.imp_right fun hne heq => hne ?_
    have hnonempty : w ≠ [] := by
      rintro rfl
      cases hsot
    rw [byteAt_length_sub_one, List.getLast?_eq_some_getLast hnonempty] at heq
    rw [List.getLast?_eq_some_getLast hnonempty]
    exact congrArg some heq
  simp only [interiorOf, if_neg hfirst, if_pos hlast]

theorem interiorOf_misplacedDelimiter {cfg : Cfg} {interior : List Byte}
    (h : cfg.sot ∈ interior ∨ cfg.eot ∈ interior) :
    interiorOf cfg (cfg.sot :: interior ++ [cfg.eot]) = .error .misplacedDelimiter := by
  have hany : interior.any (delimiter cfg) = true := by
    rw [List.any_eq_true]
    obtain h | h := h
    · exact ⟨cfg.sot, h, by simp [delimiter_iff]⟩
    · exact ⟨cfg.eot, h, by simp [delimiter_iff]⟩
  rw [interiorOf_delimited, if_pos hany]

theorem interiorOf_clean {cfg : Cfg} {interior : List Byte} (h : ∀ b ∈ interior, b ≠ cfg.sot ∧ b ≠ cfg.eot) :
    interiorOf cfg (cfg.sot :: interior ++ [cfg.eot]) = .ok interior := by
  have hany : ¬ interior.any (delimiter cfg) = true := by
    rw [List.any_eq_true]
    rintro ⟨b, hb, hdelimiter⟩
    obtain ⟨hsot, heot⟩ := h b hb
    exact ((delimiter_iff cfg b).1 hdelimiter).elim hsot heot
  rw [interiorOf_delimited, if_neg hany]

/-! ## The region -/

theorem frameOfRegion_short {cfg : Cfg} {u : List Byte} (h : u.length < 5) : frameOfRegion cfg u = .error .short :=
  if_pos h

theorem frameOfRegion_checksum {cfg : Cfg} {u : List Byte} (hlen : 5 ≤ u.length) (h : crcFold 0x0000 u ≠ 0x0000) :
    frameOfRegion cfg u = .error .checksum := by
  rw [frameOfRegion, if_neg (Nat.not_lt.2 hlen), if_pos h]

theorem frameOfRegion_fields {cfg : Cfg} {u : List Byte} (hlen : 5 ≤ u.length) (h : crcFold 0x0000 u = 0x0000) :
    frameOfRegion cfg u = fieldsOf cfg u := by
  rw [frameOfRegion, if_neg (Nat.not_lt.2 hlen), if_neg (not_not.2 h)]

/-- Of a region that is long enough, the checksum check fails exactly where the residue is not 0. -/
theorem frameOfRegion_eq_checksum_iff {cfg : Cfg} {u : List Byte} (hlen : 5 ≤ u.length) :
    frameOfRegion cfg u = .error .checksum ↔ crcFold 0x0000 u ≠ 0x0000 := by
  refine ⟨fun h hzero => ?_, frameOfRegion_checksum hlen⟩
  rw [frameOfRegion_fields hlen hzero] at h
  obtain hrc | hrc := fieldsOf_error h <;> cases hrc

/-- After the two addresses too few bytes are left for command and checksum. -/
theorem fieldsOf_short {cfg : Cfg} {u : List Byte} {dest src : Byte} {p q : Nat}
    (hdest : aliasFold cfg u 0 = (dest, p)) (hsrc : aliasFold cfg u p = (src, q)) (h : u.length < q + 3) :
    fieldsOf cfg u = .error .short := by
  simp only [fieldsOf, hdest, hsrc]
  rw [if_pos (by omega)]

end Sys2Proof.Machine
end

section
/-! SUPPORT. DECODE of what ENCODE returned (42_frame_codec.md R146, R149, R150). -/

namespace Sys2Proof.Machine

open Sys2Proof

theorem stuff_avoids_delimiters {cfg : Cfg} (hvalid : cfgValid cfg = true)
    (hesc : wfEsc cfg = true ∨ DefaultSentinels cfg) (x : List Byte) :
    ∀ b ∈ stuff cfg x, b ≠ cfg.sot ∧ b ≠ cfg.eot := by
  intro b hb
  have havoid := stuff_avoids_sentinels hvalid (escape_avoids_sentinels hesc) x b hb
  simp only [List.mem_cons, not_or] at havoid
  obtain ⟨hsot, heot, -⟩ := havoid
  exact ⟨hsot, heot⟩

/-- The delimiters of a wire frame pass DECODE's checks on them. -/
theorem interiorOf_wireOf {cfg : Cfg} (hvalid : cfgValid cfg = true) (hesc : wfEsc cfg = true ∨ DefaultSentinels cfg)
    (x : List Byte) : interiorOf cfg (wireOf cfg x) = .ok (stuff cfg x) :=
  interiorOf_clean (stuff_avoids_delimiters hvalid hesc x)

/-- DECODE sees the region that was stuffed and delimited, where its escapes are read back. -/
theorem decodeFrame_wireOf {cfg : Cfg} (hvalid : cfgValid cfg = true) (hesc : wfEsc cfg = true ∨ DefaultSentinels cfg)
    {x : List Byte} (hlow : ∀ b ∈ x, reserved cfg b = true → b < 0x40) :
    decodeFrame cfg (wireOf cfg x) = frameOfRegion cfg x :=
  decodeFrame_of_unstuff_ok (interiorOf_wireOf hvalid hesc x) (unstuff_stuff hlow)

theorem frameOfRegion_withChecksum {cfg : Cfg} {region : List Byte} (h : 3 ≤ region.length) :
    frameOfRegion cfg (withChecksum region) = fieldsOf cfg (withChecksum region) :=
  frameOfRegion_fields (by simpa [withChecksum, u16Bytes] using h) (crcFold_withChecksum region)

theorem protectedRegion_length (cfg : Cfg) (dest src cmd : Byte) (payload : List Byte) :
    (protectedRegion cfg dest src cmd payload).length = payload.length + (aliasExpand cfg dest).length + 2 := by
  simp [protectedRegion]
  omega

/-- The fields of the region ENCODE sent are the Frame, where no alias pair stands by chance where folding looks
(42_frame_codec.md R149). -/
theorem fieldsOf_protectedRegion {cfg : Cfg} (hvalid : cfgValid cfg = true) {dest src cmd : Byte} {payload : List Byte}
    (hlen : payload.length ≤ cfg.maxPayload) (hsrc : ∀ a ∈ cfg.aliases, ¬ (a.first = src ∧ a.second = cmd))
    (hdest : (∀ a ∈ cfg.aliases, a.canonical ≠ dest) → ∀ a ∈ cfg.aliases, ¬ (a.first = dest ∧ a.second = src)) :
    fieldsOf cfg (withChecksum (protectedRegion cfg dest src cmd payload)) =
      .ok ⟨dest, src, cmd, payload, crcFold 0x0000 (protectedRegion cfg dest src cmd payload)⟩ := by
  generalize hc : crcFold 0x0000 (protectedRegion cfg dest src cmd payload) = c
  have hregion : withChecksum (protectedRegion cfg dest src cmd payload) =
      aliasExpand cfg dest ++ src :: cmd :: (payload ++ [hiByte c, loByte c]) := by
    rw [withChecksum, hc]
    simp [protectedRegion, u16Bytes]
  have hrest : (aliasExpand cfg dest ++ src :: cmd :: (payload ++ [hiByte c, loByte c])).drop
      ((aliasExpand cfg dest).length + 1) = cmd :: payload ++ [hiByte c, loByte c] :=
    List.drop_length_add_append ..
  rw [hregion, fieldsOf_eq (aliasFold_aliasExpand hvalid hdest _) (aliasFold_source hsrc _ _) hrest,
    if_neg (Nat.not_lt.2 hlen), joinBytes_hiByte_loByte]

/-- The round trip of the codec: the escapes are read back, the checksum holds, and the addresses fold to the Frame's
(42_frame_codec.md R149). -/
theorem decodeFrame_encodedWire {cfg : Cfg} (hvalid : cfgValid cfg = true)
    (hesc : wfEsc cfg = true ∨ DefaultSentinels cfg) {dest src cmd : Byte} {payload : List Byte}
    (hlow : ∀ b ∈ withChecksum (protectedRegion cfg dest src cmd payload), reserved cfg b = true → b < 0x40)
    (hlen : payload.length ≤ cfg.maxPayload) (hsrc : ∀ a ∈ cfg.aliases, ¬ (a.first = src ∧ a.second = cmd))
    (hdest : (∀ a ∈ cfg.aliases, a.canonical ≠ dest) → ∀ a ∈ cfg.aliases, ¬ (a.first = dest ∧ a.second = src)) :
    decodeFrame cfg (encodedWire cfg dest src cmd payload) =
      .ok ⟨dest, src, cmd, payload, crcFold 0x0000 (protectedRegion cfg dest src cmd payload)⟩ := by
  have hregion : 3 ≤ (protectedRegion cfg dest src cmd payload).length := by
    have haddress := aliasExpand_length cfg dest
    rw [protectedRegion_length]
    omega
  rw [encodedWire, decodeFrame_wireOf hvalid hesc hlow, frameOfRegion_withChecksum hregion,
    fieldsOf_protectedRegion hvalid hlen hsrc hdest]

theorem resultOf_rc_eq_checksum_iff {α : Type} (e : Except ResultCode α) (f : α → Value) :
    (resultOf (e.map f)).rc = .checksum ↔ e = .error .checksum := by
  cases e <;> simp [Except.map, resultOf]

end Sys2Proof.Machine
end

section
/-! PROOFS. The Frame Codec (42_frame_codec.md): ENCODE's result and wire frame, alias folding, DECODE's checks, and the
round trips. -/

namespace Sys2Proof.Machine

open Sys2Proof

/-- Settles O45: `WF_ESC` makes every escape readable, and the folded region is the Frame. -/
theorem decodeOfEncodedFrameIsTheFrame : Obligations.DecodeOfEncodedFrameIsTheFrame := by
  intro dest src cmd payload s hvalid hwf hlen hsrc hdest
  refine ⟨_, _, exec_encode_of_length_le dest src cmd hlen, rfl, exec_decode_of_ok ?_⟩
  exact decodeFrame_encodedWire hvalid (.inl hwf) (fun b _ => (wfEsc_iff s.cfg).1 hwf b) hlen hsrc hdest

/-- Settles O46: without 0x5E every escape is readable; the first 0x5E becomes one that is not. -/
theorem defaultRoundTripFailsExactlyOnSoe : Obligations.DefaultRoundTripFailsExactlyOnSoe := by
  intro dest src cmd payload s hvalid hdefault haliases hlen
  have hprotected : protectedRegion s.cfg dest src cmd payload = [dest, src, cmd] ++ payload := by
    rw [protectedRegion, aliasExpand_of_no_aliases haliases]
    rfl
  refine ⟨_, _, exec_encode_of_length_le dest src cmd hlen, rfl, fun hclean => ?_, fun hmem => ?_⟩
  · have hlow : ∀ b ∈ withChecksum (protectedRegion s.cfg dest src cmd payload),
        reserved s.cfg b = true → b < 0x40 := by
      rw [hprotected]
      exact fun b hb hr => hdefault.lt_of_reserved hr fun heq => hclean (heq ▸ hb)
    have hround := decodeFrame_encodedWire hvalid (.inr hdefault) hlow hlen (by simp [haliases]) (by simp [haliases])
    rw [hprotected] at hround
    exact exec_decode_of_ok hround
  · refine exec_decode_of_error (decodeFrame_of_unstuff_error (interiorOf_wireOf hvalid (.inr hdefault) _) ?_)
    rw [hprotected]
    exact unstuff_stuff_defaultSoe hdefault hmem

/-- Settles O41: the address is what `alias_expand` gives in either case. -/
theorem encodeResult : Obligations.EncodeResult := by
  intro dest src cmd payload s
  refine ⟨rfl, exec_encode_of_lt dest src cmd, fun hvalid hlen address haddress => ?_⟩
  obtain rfl : aliasExpand s.cfg dest = address := by
    obtain ⟨a, ha, rfl, rfl⟩ | ⟨hother, rfl⟩ := haddress
    · exact aliasExpand_canonical hvalid ha
    · exact aliasExpand_of_not_canonical hother
  exact exec_encode_of_length_le dest src cmd hlen

/-- Settles O42: stuffing leaves no delimiter, and writes one or two bytes for each. -/
theorem wireFrameShapeAndLength : Obligations.WireFrameShapeAndLength := by
  intro dest src cmd payload s hvalid hesc hlen
  have hregion : (withChecksum (protectedRegion s.cfg dest src cmd payload)).length =
      payload.length + (aliasExpand s.cfg dest).length + 4 := by
    simp [withChecksum, protectedRegion_length, u16Bytes]
  refine ⟨_, stuff s.cfg (withChecksum (protectedRegion s.cfg dest src cmd payload)),
    exec_encode_of_length_le dest src cmd hlen, rfl, stuff_avoids_delimiters hvalid hesc _,
    aliasExpand_length s.cfg dest, ?_, ?_⟩
  · rw [stuff_length, hregion]
    exact Nat.le_add_right _ _
  · exact hregion ▸ stuff_length_le s.cfg _

/-- Settles O43: the pair's entry is the only one found, or none is. -/
theorem aliasFoldIsGreedy : Obligations.AliasFoldIsGreedy :=
  fun _ _ _ hvalid => ⟨fun _ ha => aliasFold_pair hvalid ha, fun _ => aliasFold_single⟩

/-- Settles O44: one lemma for each check, in the rule's order. -/
theorem decodeChecksInOrder : Obligations.DecodeChecksInOrder := by
  intro w s
  refine ⟨rfl, fun hsot => ?_, fun hsot heot => ?_, ?_⟩
  · exact exec_decode_of_error (decodeFrame_of_interior_error (interiorOf_missingSot hsot))
  · exact exec_decode_of_error (decodeFrame_of_interior_error (interiorOf_missingEot hsot heot))
  rintro interior rfl
  refine ⟨fun hmem => ?_, fun hsot heot => ?_⟩
  · exact exec_decode_of_error (decodeFrame_of_interior_error (interiorOf_misplacedDelimiter hmem))
  have hinterior := interiorOf_clean fun b hb =>
    ⟨ne_of_mem_of_not_mem hb hsot, ne_of_mem_of_not_mem hb heot⟩
  refine ⟨fun rc hrc => exec_decode_of_error (decodeFrame_of_unstuff_error hinterior hrc), fun u hu => ?_⟩
  have hdecode := decodeFrame_of_unstuff_ok hinterior hu
  refine ⟨fun hshort => ?_, fun hlen hresidue => ?_, fun hlen hresidue dest src p q hdest hsrc => ?_⟩
  · exact exec_decode_of_error (hdecode.trans (frameOfRegion_short hshort))
  · exact exec_decode_of_error (hdecode.trans (frameOfRegion_checksum hlen hresidue))
  have hfields := hdecode.trans (frameOfRegion_fields hlen hresidue)
  refine ⟨fun hshort => ?_, fun cmd msb lsb payload hrest => ⟨fun hlong => ?_, fun hfits => ?_⟩⟩
  · exact exec_decode_of_error (hfields.trans (fieldsOf_short hdest hsrc hshort))
  · exact exec_decode_of_error (hfields.trans ((fieldsOf_eq hdest hsrc hrest).trans (if_pos hlong)))
  · exact exec_decode_of_ok (hfields.trans ((fieldsOf_eq hdest hsrc hrest).trans (if_neg (Nat.not_lt.2 hfits))))

/-- Settles O48: the checksum check alone returns CHECKSUM, and the residue law says when it fails. -/
theorem decodeAcceptsExactlyTheChecksum : Obligations.DecodeAcceptsExactlyTheChecksum := by
  intro region c s hvalid hwf hlen
  have hregion : 5 ≤ (region ++ [hiByte c, loByte c]).length := by simpa using hlen
  have hdecode : decodeFrame s.cfg (wireOf s.cfg (region ++ [hiByte c, loByte c])) =
      frameOfRegion s.cfg (region ++ [hiByte c, loByte c]) :=
    decodeFrame_wireOf hvalid (.inl hwf) fun b _ => (wfEsc_iff s.cfg).1 hwf b
  refine ⟨_, _, exec_decode _ s, rfl, ?_⟩
  rw [resultOf_rc_eq_checksum_iff]
  exact (hdecode ▸ frameOfRegion_eq_checksum_iff hregion).trans (crcFold_append_bytes_eq_zero_iff region c).not

end Sys2Proof.Machine
end

section
/-! SUPPORT. The Transport Reader's operations: RX_BYTE by its cases (43_reader.md R171), each operation as its effect on
the reader and one result (R173, R175, R176), and sequences of them (R173, R174). -/

namespace Sys2Proof.Machine

open Sys2Proof

/-! ## RX_BYTE, one equation a case -/

theorem rxByte_noise {b : Byte} {s : State} (hs : s.rxState = .hunt) (hsot : b ≠ s.cfg.sot) :
    rxByte b s = (s, .ok none) := by
  simp [rxByte, hs, hsot]

theorem rxByte_sot (s : State) : rxByte s.cfg.sot s = (s.setReader .inFrame [s.cfg.sot], .ok none) := by
  cases hs : s.rxState <;> simp [rxByte, hs]

theorem rxByte_eot {s : State} (hs : s.rxState = .inFrame) (hne : s.cfg.eot ≠ s.cfg.sot) :
    rxByte s.cfg.eot s = (s.clearReader, .ok (some (s.rxBuf ++ [s.cfg.eot]))) := by
  simp [rxByte, hs, hne]

theorem rxByte_overflow {b : Byte} {s : State} (hs : s.rxState = .inFrame) (hsot : b ≠ s.cfg.sot)
    (heot : b ≠ s.cfg.eot) (hfull : s.cfg.rxCap ≤ s.rxBuf.length + 1) :
    rxByte b s = (s.clearReader, .error .overflow) := by
  simp [rxByte, hs, hsot, heot, hfull]

theorem rxByte_keep {b : Byte} {s : State} (hs : s.rxState = .inFrame) (hsot : b ≠ s.cfg.sot)
    (heot : b ≠ s.cfg.eot) (hroom : s.rxBuf.length + 1 < s.cfg.rxCap) :
    rxByte b s = (s.setReader .inFrame (s.rxBuf ++ [b]), .ok none) := by
  simp [rxByte, hs, hsot, heot, hroom]

@[simp] theorem rxByte_cfg (b : Byte) (s : State) : (rxByte b s).1.cfg = s.cfg := by
  obtain ⟨st, buf, hstate⟩ := rxByte_state b s
  rw [hstate, State.setReader_cfg]

@[simp] theorem rxByte_results (b : Byte) (s : State) : (rxByte b s).1.results = s.results := by
  obtain ⟨st, buf, hstate⟩ := rxByte_state b s
  rw [hstate, State.setReader_results]

@[simp] theorem rxFeed_results (chunk : List Byte) (s : State) : (rxFeed chunk s).1.results = s.results := by
  obtain ⟨st, buf, hstate⟩ := rxFeed_state chunk s
  rw [hstate, State.setReader_results]

/-! ## The operations -/

theorem exec_rxByte (b : Byte) (s : State) :
    exec (.rxByte b) s = .next ((rxByte b s).1.answer (resultOf ((rxByte b s).2.map .cand))) :=
  returnOrRaise_next _ _

/-- RX_BYTE where its effect and answer are known. -/
theorem exec_rxByte_of_eq {b : Byte} {s t : State} {a : RxAnswer} (h : rxByte b s = (t, a)) :
    exec (.rxByte b) s = .next (t.answer (resultOf (a.map .cand))) := by
  rw [exec_rxByte, h]

theorem exec_rxPush (chunk : List Byte) (s : State) :
    exec (.rxPush chunk) s = .next ((rxFeed chunk s).1.answer ⟨.ok, .events (rxFeed chunk s).2⟩) :=
  rfl

theorem exec_rxTimeout (s : State) : exec .rxTimeout s = .next (s.clearReader.answer ⟨.timeout, .none⟩) := rfl

theorem exec_rxFlush (s : State) : exec .rxFlush s = .next (s.clearReader.answer ⟨.ok, .none⟩) := rfl

/-! ## Sequences of them -/

theorem execAll_cons_of_next {i : Instr} {s t : State} (h : exec i s = .next t) (is : List Instr) :
    execAll (i :: is) s = execAll is t := by
  simp only [execAll, h]

/-- The result of RX_BYTE stands for the events the byte adds to a chunk's list (43_reader.md R173). That its code tells
an error from success rests on what it raises, OVERFLOW only. -/
theorem eventsOfResults_rxByte_cons (b : Byte) (s : State) (rs : List Result) :
    eventsOfResults (resultOf ((rxByte b s).2.map .cand) :: rs) = eventsOf (rxByte b s).2 ++ eventsOfResults rs := by
  match ha : (rxByte b s).2 with
  | .ok (some c) => rfl
  | .ok none => rfl
  | .error rc =>
    obtain rfl := rxByte_error ha
    rfl

/-- RX_BYTE on each byte of a chunk: the state after the chunk, and as many results, which stand for its events
(43_reader.md R173). -/
theorem execAll_rxBytes (chunk : List Byte) (s : State) : ∃ rs, rs.length = chunk.length ∧
    eventsOfResults rs = (rxFeed chunk s).2 ∧
    execAll (chunk.map .rxByte) s = .next { (rxFeed chunk s).1 with results := s.results ++ rs } := by
  induction chunk generalizing s with
  | nil => exact ⟨[], rfl, rfl, by simp [execAll]⟩
  | cons b chunk ih =>
    obtain ⟨rs, hlen, hevents, hrun⟩ := ih ((rxByte b s).1.answer (resultOf ((rxByte b s).2.map .cand)))
    simp only [rxFeed_answer] at hevents hrun
    refine ⟨_ :: rs, congrArg (· + 1) hlen, (eventsOfResults_rxByte_cons b s rs).trans (by rw [hevents]; rfl), ?_⟩
    rw [List.map_cons, execAll_cons_of_next (exec_rxByte b s), hrun]
    simp [rxFeed_cons, State.answer]

/-- RX_PUSH on each of a list of chunks: the state after the stream they make up, and results that hold its events
(43_reader.md R174). -/
theorem execAll_rxPushes (chunks : List (List Byte)) (s : State) : ∃ rs,
    eventsOfPushes rs = (rxFeed chunks.flatten s).2 ∧
    execAll (chunks.map .rxPush) s = .next { (rxFeed chunks.flatten s).1 with results := s.results ++ rs } := by
  induction chunks generalizing s with
  | nil => exact ⟨[], rfl, by simp [execAll]⟩
  | cons chunk chunks ih =>
    obtain ⟨rs, hevents, hrun⟩ := ih ((rxFeed chunk s).1.answer ⟨.ok, .events (rxFeed chunk s).2⟩)
    simp only [rxFeed_answer] at hevents hrun
    rw [List.flatten_cons, rxFeed_append]
    refine ⟨⟨.ok, .events (rxFeed chunk s).2⟩ :: rs, by simp [eventsOfPushes, hevents], ?_⟩
    rw [List.map_cons, execAll_cons_of_next (exec_rxPush chunk s), hrun]
    simp [State.answer]

end Sys2Proof.Machine
end

section
/-! SUPPORT. What the candidates of the Transport Reader are: delimited, clean inside and within `RX_CAP` (10_state.md
R33; 43_reader.md R171, R173), and which operations return any. -/

namespace Sys2Proof.Machine

open Sys2Proof

/-- An SOT, an EOT, no delimiter between them, and at most `RX_CAP` bytes. -/
def DelimitedWithinCap (cfg : Cfg) (c : List Byte) : Prop :=
  c.length ≤ cfg.rxCap ∧
  ∃ interior : List Byte, c = cfg.sot :: interior ++ [cfg.eot] ∧ ∀ b ∈ interior, b ≠ cfg.sot ∧ b ≠ cfg.eot

/-- The invariant leaves room for the EOT, so that the buffer of a frame and an EOT are within the bound. -/
theorem StateInv.delimited_of_eot {s : State} (h : StateInv s) (hs : s.rxState = .inFrame) :
    DelimitedWithinCap s.cfg (s.rxBuf ++ [s.cfg.eot]) := by
  obtain ⟨interior, hbuf, hlen, hclean⟩ := (readerInv_inFrame_iff hs).1 h.2
  rw [hbuf]
  exact ⟨by simp; omega, interior, rfl, hclean⟩

/-- Only an EOT in a frame makes RX_BYTE return a candidate (43_reader.md R171). -/
theorem StateInv.rxByte_candidate {s : State} (h : StateInv s) {b : Byte} {c : List Byte}
    (hc : (Machine.rxByte b s).2 = .ok (some c)) : DelimitedWithinCap s.cfg c := by
  obtain ⟨-, -, hrun⟩ | ⟨-, hrun⟩ | ⟨hs, -, rfl, hrun⟩ | ⟨-, -, -, -, hrun⟩ | ⟨-, -, -, -, hrun⟩ :=
    rxByte_cases b s <;> rw [hrun] at hc <;> cases hc
  exact h.delimited_of_eot hs

theorem candidate_mem_eventsOf_iff {a : RxAnswer} {c : List Byte} :
    .candidate c ∈ eventsOf a ↔ a = .ok (some c) := by
  match a with
  | .ok (some c') => simp [eventsOf, eq_comm]
  | .ok none => simp [eventsOf]
  | .error rc => simp [eventsOf]

theorem StateInv.rxFeed_candidate {s : State} (h : StateInv s) {chunk : List Byte} {c : List Byte}
    (hc : .candidate c ∈ (Machine.rxFeed chunk s).2) : DelimitedWithinCap s.cfg c := by
  induction chunk generalizing s with
  | nil => simp at hc
  | cons b chunk ih =>
    rw [rxFeed_cons, List.mem_append, candidate_mem_eventsOf_iff] at hc
    obtain hc | hc := hc
    · exact h.rxByte_candidate hc
    · exact rxByte_cfg b s ▸ ih (h.rxByte b) hc

/-! ## The operations that return candidates -/

theorem shapeReturned_eq_cand_iff (i : Instr) : shapeReturned i = .cand ↔ ∃ b, i = .rxByte b := by
  cases i <;> simp [shapeReturned]

theorem shapeReturned_eq_events_iff (i : Instr) : shapeReturned i = .events ↔ ∃ chunk, i = .rxPush chunk := by
  cases i <;> simp [shapeReturned]

/-- A value that is not none was returned on success, so it has the operation's shape. -/
theorem Result.Fits.shape_of_ne_none {i : Instr} {r : Result} (h : r.Fits i) (hne : r.value ≠ .none) :
    shapeOfValue r.value = shapeReturned i :=
  h.shape_of_ok (by_contra fun hrc => hne (h.none_of_error hrc))

theorem resultOf_map_cand_eq_iff (a : RxAnswer) (c : Option (List Byte)) :
    (resultOf (a.map .cand)).value = .cand c ↔ a = .ok c := by
  cases a <;> simp [resultOf, Except.map]

end Sys2Proof.Machine
end

section
/-! SUPPORT. The reader against the source's growing buffer (43_reader.md R170, R172). -/

namespace Sys2Proof.Machine

open Sys2Proof

/-! ## The source's algorithm, one equation a turn -/

theorem sourceReader_grow {cfg : Cfg} {b : Byte} (h : b ≠ cfg.eot) (buf stream : List Byte) :
    sourceReader cfg buf (b :: stream) = sourceReader cfg (buf ++ [b]) stream := by
  simp [sourceReader, h]

theorem sourceReader_noise {cfg : Cfg} {buf : List Byte} (h : cfg.sot ∉ buf) (stream : List Byte) :
    sourceReader cfg buf (cfg.eot :: stream) = sourceReader cfg [] stream := by
  simp [sourceReader, h]

/-- The candidate begins at the most recent SOT, whatever the buffer holds before it. -/
theorem sourceReader_candidate {cfg : Cfg} {interior : List Byte} (h : ∀ b ∈ interior, b ≠ cfg.sot)
    (noise stream : List Byte) :
    sourceReader cfg (noise ++ cfg.sot :: interior) (cfg.eot :: stream) =
      (cfg.sot :: interior ++ [cfg.eot]) :: sourceReader cfg [] stream := by
  have hlast : ((noise ++ cfg.sot :: interior).reverse.takeWhile (· ≠ cfg.sot)).reverse = interior := by
    rw [List.reverse_append, List.reverse_cons, List.append_assoc,
      List.takeWhile_append_of_pos fun b hb => by simpa using h b (List.mem_reverse.1 hb)]
    simp
  rw [sourceReader, if_pos rfl, if_pos (by simp), hlast]

/-! ## The refinement -/

/-- Where the reader raises no error, it finds the source's candidates. The source's buffer is the reader's and, before
it, bytes the reader has dropped since the last eviction: noise, and frames a new SOT cut off. -/
theorem StateInv.rxFeed_eq_sourceReader {s : State} (h : StateInv s) {stream noise : List Byte}
    (hnoise : s.rxState = .hunt → s.cfg.sot ∉ noise) (hclean : ∀ rc, .error rc ∉ (Machine.rxFeed stream s).2) :
    (Machine.rxFeed stream s).2 = (sourceReader s.cfg (noise ++ s.rxBuf) stream).map .candidate := by
  induction stream generalizing s noise with
  | nil => rfl
  | cons b stream ih =>
    obtain ⟨hne, -⟩ := sentinels_ne h.1
    have hnext := h.rxByte b
    rw [rxFeed_cons] at hclean ⊢
    obtain ⟨hs, hsot, hrun⟩ | ⟨rfl, hrun⟩ | ⟨hs, -, rfl, hrun⟩ | ⟨-, -, -, -, hrun⟩ | ⟨hs, hsot, heot, -, hrun⟩ :=
      rxByte_cases b s <;> simp only [hrun, eventsOf, List.nil_append] at hclean hnext ⊢
    · have hbuf : s.rxBuf = [] := h.2.1 hs
      by_cases heot : b = s.cfg.eot
      · rw [ih h (noise := []) (by simp) hclean, heot, hbuf, List.append_nil, List.append_nil,
          sourceReader_noise (hnoise hs)]
      · rw [ih h (noise := noise ++ [b]) (by simpa [hs, hsot.symm] using hnoise) hclean, sourceReader_grow heot]
        simp [hbuf]
    · rw [ih hnext (noise := noise ++ s.rxBuf) (by simp) hclean, sourceReader_grow hne]
      rfl
    · obtain ⟨interior, hbuf, -, hinterior⟩ := (readerInv_inFrame_iff hs).1 h.2
      rw [ih hnext (noise := []) (by simp) fun rc hmem => hclean rc (by simp [hmem]), hbuf,
        sourceReader_candidate fun a ha => (hinterior a ha).1]
      rfl
    · exact absurd (by simp) (hclean .overflow)
    · rw [ih hnext (noise := noise) (by simp) hclean, sourceReader_grow heot, List.append_assoc]
      rfl

theorem rxByte_rxBuf_length_le (b : Byte) (s : State) : (rxByte b s).1.rxBuf.length ≤ s.rxBuf.length + 1 := by
  obtain ⟨-, -, hrun⟩ | ⟨-, hrun⟩ | ⟨-, -, -, hrun⟩ | ⟨-, -, -, -, hrun⟩ | ⟨-, -, -, -, hrun⟩ := rxByte_cases b s <;>
    simp [hrun]

/-- RX_BYTE raises only where another byte would leave no room for the EOT (43_reader.md R171). -/
theorem rxCap_le_of_rxByte_error {b : Byte} {s : State} {rc : ResultCode} (h : (rxByte b s).2 = .error rc) :
    s.cfg.rxCap ≤ s.rxBuf.length + 1 := by
  obtain ⟨-, -, hrun⟩ | ⟨-, hrun⟩ | ⟨-, -, -, hrun⟩ | ⟨-, -, -, hfull, hrun⟩ | ⟨-, -, -, -, hrun⟩ :=
    rxByte_cases b s <;> rw [hrun] at h <;> cases h
  exact hfull

theorem error_mem_eventsOf_iff {a : RxAnswer} {rc : ResultCode} : .error rc ∈ eventsOf a ↔ a = .error rc := by
  match a with
  | .ok (some c) => simp [eventsOf]
  | .ok none => simp [eventsOf]
  | .error rc' => simp [eventsOf, eq_comm]

/-- A buffer and a stream that together are shorter than `RX_CAP` never fill the buffer (43_reader.md R172). -/
theorem rxFeed_no_error {stream : List Byte} {s : State} (h : s.rxBuf.length + stream.length < s.cfg.rxCap)
    (rc : ResultCode) : .error rc ∉ (rxFeed stream s).2 := by
  induction stream generalizing s with
  | nil => simp
  | cons b stream ih =>
    rw [List.length_cons] at h
    rw [rxFeed_cons, List.mem_append, error_mem_eventsOf_iff]
    rintro (herror | hrest)
    · have hfull := rxCap_le_of_rxByte_error herror
      omega
    · have hgrow := rxByte_rxBuf_length_le b s
      exact ih (by rw [rxByte_cfg]; omega) hrest

end Sys2Proof.Machine
end

section
/-! PROOFS. The Transport Reader (43_reader.md): the four operations, the candidates, chunks, and the source's
algorithm. -/

namespace Sys2Proof.Machine

open Sys2Proof

/-- Settles O50: RX_BYTE's equation for each case of the rule. -/
theorem rxByteResult : Obligations.RxByteResult := by
  intro b s
  refine ⟨rfl, fun hs hsot => ?_, ?_, fun hs hsot heot => ?_, fun hs hsot heot hfull => ?_,
    fun hs hsot heot hroom => ?_⟩
  · exact exec_rxByte_of_eq (rxByte_noise hs hsot)
  · rintro rfl
    exact exec_rxByte_of_eq (rxByte_sot s)
  · subst heot
    exact exec_rxByte_of_eq (rxByte_eot hs hsot)
  · exact exec_rxByte_of_eq (rxByte_overflow hs hsot heot hfull)
  · rw [exec_rxByte_of_eq (rxByte_keep hs hsot heot hroom), State.setReader, ← hs]
    rfl

/-- Settles O51: only RX_BYTE and RX_PUSH return candidates, and under the invariant theirs are delimited and bounded. -/
theorem candidatesAreDelimitedAndBounded : Obligations.CandidatesAreDelimitedAndBounded := by
  intro i s t r c hinv hrun hresults hvalue
  have hfits := fits_of_exec hrun hresults
  obtain rfl := eq_resultReturned hrun hresults
  obtain hcand | ⟨es, hes, hmem⟩ := hvalue
  · have hshape := hfits.shape_of_ne_none (by simp [hcand])
    rw [hcand] at hshape
    obtain ⟨b, rfl⟩ := (shapeReturned_eq_cand_iff i).1 hshape.symm
    exact hinv.rxByte_candidate ((resultOf_map_cand_eq_iff _ _).1 hcand)
  · have hshape := hfits.shape_of_ne_none (by simp [hes])
    rw [hes] at hshape
    obtain ⟨chunk, rfl⟩ := (shapeReturned_eq_events_iff i).1 hshape.symm
    obtain rfl : (rxFeed chunk s).2 = es := Value.events.inj hes
    exact hinv.rxFeed_candidate hmem

/-- Settles O52: both put the chunk's bytes through the reader, and differ in the results they add. -/
theorem rxPushIsItsRxBytes : Obligations.RxPushIsItsRxBytes := by
  intro chunk s
  obtain ⟨rs, hlen, hevents, hrun⟩ := execAll_rxBytes chunk s
  refine ⟨rfl, _, _, rs, hrun, rfl, hlen, exec_rxPush chunk s, ?_⟩
  rw [hevents, State.answer, rxFeed_results]

/-- Settles O53: all three put the same bytes through the reader. -/
theorem chunkBoundariesDoNotMatter : Obligations.ChunkBoundariesDoNotMatter := by
  intro chunks s
  obtain ⟨rs, hpushed, hpushes⟩ := execAll_rxPushes chunks s
  obtain ⟨qs, hlen, hfed, hbytes⟩ := execAll_rxBytes chunks.flatten s
  exact ⟨_, _, _, rs, qs, _, exec_rxPush chunks.flatten s, by simp, hpushes, hpushed, rfl, hbytes, hlen, hfed, rfl⟩

/-- Settles O54: the refinement, and the bound that a short stream cannot reach. -/
theorem candidatesAreTheSourceAlgorithms : Obligations.CandidatesAreTheSourceAlgorithms := by
  intro stream noise s hinv _ hnoise
  exact ⟨_, _, exec_rxPush stream s, by simp, hinv.rxFeed_eq_sourceReader hnoise, rxFeed_no_error⟩

/-- Settles O57: both clear the reader, and a hunting reader drops what holds no SOT. -/
theorem lateTailIsDiscarded : Obligations.LateTailIsDiscarded := by
  intro i tail s hi hsot
  obtain ⟨r, hfirst⟩ : ∃ r, exec i s = .next (s.clearReader.answer r) := by
    obtain rfl | rfl := hi
    · exact ⟨_, exec_rxTimeout s⟩
    · exact ⟨_, exec_rxFlush s⟩
  have hnoise := rxFeed_noise tail (s.clearReader.answer r) rfl hsot
  refine ⟨(s.clearReader.answer r).answer ⟨.ok, .events []⟩, ?_, rfl, rfl, by simp⟩
  rw [execAll_cons_of_next hfirst, execAll_cons_of_next (exec_rxPush tail _), hnoise, execAll]

/-- Settles O55: the reader cleared and the one result. -/
theorem rxTimeoutResult : Obligations.RxTimeoutResult := ⟨rfl, rfl, exec_rxTimeout⟩

/-- Settles O56: the reader cleared and the one result. -/
theorem rxFlushResult : Obligations.RxFlushResult := ⟨rfl, rfl, exec_rxFlush⟩

end Sys2Proof.Machine
end

section
/-! PROOFS. Exceptions (60_exceptions.md): the step by what the host offers next, which completes for a host that meets
its duties (R200, R211), and holds the state with no whole transaction to take (R215). -/

namespace Sys2Proof.Machine

open Sys2Proof

/-- With nothing queued, a step completes whatever the stream holds: no byte sequence has the wrong shape. -/
theorem step_completes_of_stream {s : State} (h : s.pending = []) : ∃ t, step s = .next t := by
  cases hd : decode s.stream with
  | instr i rest => exact step_of_stream_instr h hd ▸ exec_completes i (s.setStream rest)
  | illegal cw rest => exact ⟨_, step_of_stream_illegal h hd⟩
  | incomplete => exact ⟨s, step_of_stream_incomplete h hd⟩
  | empty => exact ⟨s, step_of_stream_empty h hd⟩

/-- A transaction at the head of the queue completes unless its operand has the wrong shape (00_scope.md R6). -/
theorem step_completes_of_transaction {s : State} {tr : Transaction} {rest : List HostAction}
    (h : s.pending = .transaction tr :: rest) (hshape : decodeTransaction tr ≠ .wrongShape) :
    ∃ t, step s = .next t := by
  cases hd : decodeTransaction tr with
  | instr i => exact step_of_pending_instr h hd ▸ exec_completes i (s.setPending rest)
  | illegal => exact ⟨_, step_of_pending_illegal h hd⟩
  | wrongShape => exact absurd hd hshape

/-- A reset at the head of the queue completes with a valid configuration (70_reset_and_hazards.md R231). -/
theorem step_completes_of_reset {s : State} {cfg : Cfg} {rest : List HostAction}
    (h : s.pending = .reset cfg :: rest) (hvalid : cfgValid cfg = true) : ∃ t, step s = .next t := by
  rw [step_of_pending_reset h]
  obtain ⟨-, hrun⟩ | ⟨hinvalid, -⟩ := hostReset_cases cfg (s.setPending rest)
  · exact ⟨_, hrun⟩
  · simp [hvalid] at hinvalid

/-- Settles O12: by what stands at the head of the queue, whose duty is the one that counts for this step. -/
theorem stepCompletesForProperHost : Obligations.StepCompletesForProperHost := by
  intro s hproper
  match hp : s.pending with
  | [] => exact step_completes_of_stream hp
  | .transaction tr :: rest =>
    have hduty := hproper (.transaction tr) (by simp [hp])
    exact step_completes_of_transaction hp (of_decide_eq_true hduty)
  | .reset cfg :: rest =>
    have hduty := hproper (.reset cfg) (by simp [hp])
    exact step_completes_of_reset hp hduty

/-- Settles O9: an empty stream and an incomplete one are each a step that takes nothing. -/
theorem stepHoldsStateBetweenTransactions : Obligations.StepHoldsStateBetweenTransactions := by
  rintro s hpending (hempty | hincomplete)
  · exact step_of_stream_empty hpending hempty
  · exact step_of_stream_incomplete hpending hincomplete

end Sys2Proof.Machine
end

section
/-! PROOFS. Reset and hazards (70_reset_and_hazards.md): the reset with a valid configuration (R230, R231), and the two
operations that clear what it clears (R232). -/

namespace Sys2Proof.Machine

open Sys2Proof

/-- With a valid configuration the reset is not refused: its state is the reset state, the host's end untouched. -/
theorem hostReset_of_valid {cfg : Cfg} (h : cfgValid cfg = true) (s : State) :
    hostReset cfg s = .next { State.resetWith cfg with
      pending := s.pending, stream := s.stream, results := s.results } := by
  simpa [h] using hostReset_cases cfg s

/-- Settles O19: the step is the reset of the head of the queue, which a valid configuration lets through. -/
theorem resetLatchesConfigurationAndClears : Obligations.ResetLatchesConfigurationAndClears := by
  refine ⟨fun cfg => ⟨rfl, rfl, rfl, rfl⟩, fun s cfg rest hpending hvalid => ?_⟩
  rw [step_of_pending_reset hpending, hostReset_of_valid hvalid]
  rfl

/-- CRC_INIT then RX_FLUSH: the checksum at 0, the reader cleared, and one result of each added. -/
theorem execAll_crcInit_rxFlush (s : State) : execAll [.crcInit, .rxFlush] s =
    .next (((s.setCrc 0x0000).answer ⟨.ok, .u16 0x0000⟩).clearReader.answer ⟨.ok, .none⟩) := by
  rw [execAll_cons_of_next (crcInitResult.2 s), execAll_cons_of_next (exec_rxFlush _)]
  rfl

/-- Settles O20: CRC_INIT clears the checksum and RX_FLUSH the reader, and the configuration is the one in force. -/
theorem resetEqualsInitThenFlush : Obligations.ResetEqualsInitThenFlush := fun s hvalid =>
  ⟨_, _, execAll_crcInit_rxFlush s, hostReset_of_valid hvalid s, rfl, rfl, rfl, rfl⟩

end Sys2Proof.Machine
end
